-- ==== Sys2Proof/Word.lean ====
section
/-! DEFINITION. The word types of FBCE: bytes, the 64-bit operation word, its field types, the 7-bit bus address, and what the host can present. -/

namespace Sys2Proof

/-- A byte, bits 7 to 0 (rule R10). -/
abbrev Byte := BitVec 8

/-- The host operation word, bits 63 to 0 (rule R45). -/
abbrev OpWord := BitVec 64

/-- A 16-bit field of the operation word: a coordinate, a width, a height or a length (rules R48 to R52). -/
abbrev Field16 := BitVec 16

/-- The 7-bit bus address (rule R23). -/
abbrev BusAddr := BitVec 7

/-- One thing the host presents: an operation word, a payload byte of a CMDLIST (rules R27, R53), or a reset
(rules R113, R117). -/
inductive HostInput where
  | op (w : OpWord)
  | payload (b : Byte)
  | reset
  deriving DecidableEq, Repr

end Sys2Proof
end

