-- ==== Sys2Proof/Syntax.lean ====
section
/-! DEFINITION. The operations of FBCE, one constructor per row of spec/opcode_table.json. -/

namespace Sys2Proof

/-- An operation with its operands (rules R46 to R53). Coordinates are kept as their 16-bit fields; rule R54 reads
them as signed numbers. -/
inductive Instr where
  /-- INIT, format I (rules R52, R91). -/
  | init (width height : Field16) (addr : BusAddr)
  /-- SHUTDOWN, format N (rules R47, R95). -/
  | shutdown
  /-- SETPX, format P (rules R48, R66). -/
  | setpx (x y : Field16) (on : Bool)
  /-- SETRGB, format C (rules R49, R68). -/
  | setrgb (x y : Field16) (r g b : Byte)
  /-- GETPX, format P (rules R48, R69). -/
  | getpx (x y : Field16)
  /-- CLEAR, format N (rules R47, R70). -/
  | clear
  /-- FLUSH, format N (rules R47, R85). -/
  | flush
  /-- CMD, format B (rules R50, R82). -/
  | cmd (c : Byte)
  /-- CMDLIST, format L, with the payload bytes that follow its word (rules R51, R53, R83). -/
  | cmdlist (payload : List Byte)
  deriving DecidableEq, Repr

end Sys2Proof
end

