-- ==== Sys2Proof/WellFormed.lean ====
section
/-! DEFINITION. Which operations the operation word can carry: the one operand with a bound that its type does not give is CMDLIST's payload. -/

namespace Sys2Proof

/-- An operation is well formed when its word can carry it: the length of a CMDLIST payload fits the 16-bit field `n`
(rule R51). Every other operand has its field's own type. -/
def Instr.wellFormed : Instr → Bool
  | .init _ _ _ => true
  | .shutdown => true
  | .setpx _ _ _ => true
  | .setrgb _ _ _ _ _ => true
  | .getpx _ _ => true
  | .clear => true
  | .flush => true
  | .cmd _ => true
  | .cmdlist payload => decide (payload.length ≤ 65535)

end Sys2Proof
end

