-- ==== Sys2Proof/Decode.lean ====
section
/-! DEFINITION. Decoding of the host port's inputs (rules R45 to R57), and the encoder (rule R58). -/

namespace Sys2Proof

/-- The operations of the opcode map (rule R46), without operands. -/
inductive Opcode where
  | init
  | shutdown
  | setpx
  | setrgb
  | getpx
  | clear
  | flush
  | cmd
  | cmdlist
  deriving DecidableEq, Repr

/-- A row of the opcode table: the word belongs to the row when `word &&& mask = pattern`. -/
structure OpcodeRow where
  opcode : Opcode
  pattern : OpWord
  mask : OpWord
  deriving DecidableEq, Repr

/-- The opcode table: match and mask of each format (rules R47 to R52). -/
def opcodeTable : List OpcodeRow :=
  [⟨.init, 0x0000000000000001#64, 0xFFFF8000000000FF#64⟩,
   ⟨.shutdown, 0x0000000000000002#64, 0xFFFFFFFFFFFFFFFF#64⟩,
   ⟨.setpx, 0x0000000000000003#64, 0xFFFFFF00000000EF#64⟩,
   ⟨.setrgb, 0x0000000000000004#64, 0x00000000000000FF#64⟩,
   ⟨.getpx, 0x0000000000000005#64, 0xFFFFFF00000000FF#64⟩,
   ⟨.clear, 0x0000000000000006#64, 0xFFFFFFFFFFFFFFFF#64⟩,
   ⟨.flush, 0x0000000000000007#64, 0xFFFFFFFFFFFFFFFF#64⟩,
   ⟨.cmd, 0x0000000000000008#64, 0xFFFFFFFFFFFF00FF#64⟩,
   ⟨.cmdlist, 0x0000000000000009#64, 0xFFFFFFFFFF0000FF#64⟩]

/-- The operation selector `op = w[3:0]` (rule R45). -/
def opField (w : OpWord) : BitVec 4 := w.extractLsb' 0 4

/-- The 16-bit field `w[23:8]`: `x`, `width` or `n` (rules R48, R49, R51, R52). -/
def lowField (w : OpWord) : Field16 := w.extractLsb' 8 16

/-- The 16-bit field `w[39:24]`: `y` or `height` (rules R48, R49, R52). -/
def highField (w : OpWord) : Field16 := w.extractLsb' 24 16

/-- The row of a legal `op`, if there is one (rule R57). -/
def findRow (op : BitVec 4) : Option OpcodeRow :=
  opcodeTable.find? fun row => opField row.pattern == op

/-- What decoding answers: an operation with the inputs that follow it, or a rejection by name (rules R53, R55, R56). -/
inductive Decoded where
  | instr (i : Instr) (rest : List HostInput)
  | illegalOp
  | reservedBits
  | awaitingPayload
  deriving DecidableEq, Repr

/-- The `n` payload bytes at the head of the host's inputs and what follows them, if they have all arrived
(rule R53). A reset or a word among them ends the payload short, and the CMDLIST is stuck (DESIGN CHOICE, safe: log
entry 26). -/
def takePayload : Nat → List HostInput → Option (List Byte × List HostInput)
  | 0, rest => some ([], rest)
  | n + 1, .payload b :: rest =>
    match takePayload n rest with
    | some (bytes, after) => some (b :: bytes, after)
    | none => none
  | _ + 1, _ => none

/-- The operands of a word that belongs to its row (rule R54), and CMDLIST's payload (rule R53). -/
def extractFields (op : Opcode) (w : OpWord) (following : List HostInput) : Decoded :=
  match op with
  | .init => .instr (.init (lowField w) (highField w) (w.extractLsb' 40 7)) following
  | .shutdown => .instr .shutdown following
  | .setpx => .instr (.setpx (lowField w) (highField w) (w.getLsbD 4)) following
  | .setrgb =>
    .instr (.setrgb (lowField w) (highField w) (w.extractLsb' 40 8) (w.extractLsb' 48 8) (w.extractLsb' 56 8)) following
  | .getpx => .instr (.getpx (lowField w) (highField w)) following
  | .clear => .instr .clear following
  | .flush => .instr .flush following
  | .cmd => .instr (.cmd (w.extractLsb' 8 8)) following
  | .cmdlist =>
    match takePayload (lowField w).toNat following with
    | some (bytes, rest) => .instr (.cmdlist bytes) rest
    | none => .awaitingPayload

/-- The decoding procedure of rule R57 on a word and the inputs that follow it. -/
def decode (w : OpWord) (following : List HostInput) : Decoded :=
  match findRow (opField w) with
  | none => .illegalOp
  | some row => if w &&& row.mask = row.pattern then extractFields row.opcode w following else .reservedBits

/-- A field's bits in the operation word, from bit `lo` up. -/
def fieldAt {n : Nat} (v : BitVec n) (lo : Nat) : OpWord := v.setWidth 64 <<< lo

/-- The word of an operation: its fields at the places rules R47 to R52 give them, every reserved bit 0 (rule R58). -/
def encodeWord : Instr → OpWord
  | .init width height addr => fieldAt addr 40 ||| fieldAt height 24 ||| fieldAt width 8 ||| 1#64
  | .shutdown => 2#64
  | .setpx x y on => fieldAt y 24 ||| fieldAt x 8 ||| fieldAt (BitVec.ofBool on) 4 ||| 3#64
  | .setrgb x y r g b =>
    fieldAt b 56 ||| fieldAt g 48 ||| fieldAt r 40 ||| fieldAt y 24 ||| fieldAt x 8 ||| 4#64
  | .getpx x y => fieldAt y 24 ||| fieldAt x 8 ||| 5#64
  | .clear => 6#64
  | .flush => 7#64
  | .cmd c => fieldAt c 8 ||| 8#64
  | .cmdlist payload => fieldAt (BitVec.ofNat 16 payload.length) 8 ||| 9#64

/-- The payload bytes that follow an operation's word (rule R53). -/
def Instr.payload : Instr → List Byte
  | .init _ _ _ => []
  | .shutdown => []
  | .setpx _ _ _ => []
  | .setrgb _ _ _ _ _ => []
  | .getpx _ _ => []
  | .clear => []
  | .flush => []
  | .cmd _ => []
  | .cmdlist bytes => bytes

/-- An operation as the host presents it: its word, then its payload bytes (rules R53, R58). -/
def encode (i : Instr) : List HostInput :=
  .op (encodeWord i) :: i.payload.map .payload

/-- The `n` bytes whose bits start at bit 0 of `v`, least significant byte first. -/
def bytesFrom : Nat → Nat → List HostInput
  | 0, _ => []
  | n + 1, v => .payload (BitVec.ofNat 8 v) :: bytesFrom n (v >>> 8)

/-- The inputs that present the instruction whose bits are `w`, as the opcode table numbers bits: bits 63 to 0 are the
operation word, and payload byte `k` of a CMDLIST is bits `64 + 8k + 7` to `64 + 8k`. Bits from `nbits` up are 0.
DESIGN CHOICE, safe (log entry 20). -/
def tableInputs (nbits w : Nat) : List HostInput :=
  let bits := w % 2 ^ nbits
  let word := BitVec.ofNat 64 bits
  let n := if opField word = 9#4 then (lowField word).toNat else 0
  .op word :: bytesFrom n (bits >>> 64)

/-- The instruction the decoder reads from the bits `w` of an opcode-table row. -/
def decodeTableWord (nbits w : Nat) : Option Instr :=
  match tableInputs nbits w with
  | .op word :: following =>
    match decode word following with
    | .instr i _ => some i
    | _ => none
  | _ => none

end Sys2Proof
end

