-- ==== Sys2Proof/Config.lean ====
section
/-! DEFINITION. The parameters of FBCE (rule R8) as plain data, and the two environment draws (rule R107) as free values. -/

namespace Sys2Proof

/-- `MONO_RULE`, the colour-to-monochrome reduction (rule R67). -/
inductive MonoRule where
  | sumGt
  | orGt
  | cPrec
  deriving DecidableEq, Repr

/-- `ON_BUS_FAIL`, what follows a failed transaction (rule R80): `keepGoing` is the spec's CONTINUE, `abortOp` its
ABORT_OP. -/
inductive OnBusFail where
  | keepGoing
  | abortOp
  deriving DecidableEq, Repr

/-- A command group of an `INIT_TABLE`: a non-empty byte list (rules R8, R92) whose length `SEG.len` holds (rule R26).
The bound is DEDUCED, safe (log entry 11). -/
structure CommandGroup where
  bytes : List Byte
  nonempty : 1 ≤ bytes.length
  fits : bytes.length ≤ 65535
  deriving DecidableEq, Repr

/-- The command groups that an `INIT_TABLE` gives for one geometry (rule R92). -/
structure InitRow where
  width : Nat
  height : Nat
  groups : List CommandGroup
  deriving DecidableEq, Repr

/-- `INIT_TABLE`, a function from geometry to command groups (rules R8, R92), held as plain data: the informative
table of rule R93, or a finite list of geometries with their groups. Legal geometries are finitely many (rule R90),
so a list can hold any function of them. DESIGN CHOICE, safe (log entry 3). -/
inductive InitTable where
  | standard
  | listed (rows : List InitRow)
  deriving DecidableEq, Repr

/-- The parameters of rule R8. No operation and no reset changes them. -/
structure Params where
  /-- `MAX_TXN`, written `M` (rule R9). -/
  maxTxn : Nat
  /-- `CHUNK_ENABLE` (rules R76, R81). -/
  chunkEnable : Bool
  /-- `INIT_TABLE` (rule R92). -/
  initTable : InitTable
  /-- `MONO_RULE` (rule R67). -/
  monoRule : MonoRule
  /-- `ON_BUS_FAIL` (rule R80). -/
  onBusFail : OnBusFail
  /-- `FB_BYTES_MAX` (rule R30). -/
  fbBytesMax : Nat
  deriving DecidableEq, Repr

/-- The configuration that `State.reset` holds: rule R8's values for this hardware, and for its OPEN parameters the
source's fallback 32, the table of rule R93, OR_GT and CONTINUE. DESIGN CHOICE, unsafe for a claim that rests on it
(log entry 2); a claim about every state holds for every value of every parameter. -/
def Params.standard : Params where
  maxTxn := 32
  chunkEnable := true
  initTable := .standard
  monoRule := .orGt
  onBusFail := .keepGoing
  fbBytesMax := 8192

/-- The allocator's answer `alloc_ok` (rules R30, R107): a free value, one for each number of the draw counter.
DESIGN CHOICE, safe (log entry 4). -/
opaque Config.allocOk : Nat → Bool

/-- The transport's answer `ok` (rules R29, R107): a free value, one for each number of the draw counter.
DESIGN CHOICE, safe (log entry 5). -/
opaque Config.busOk : Nat → Bool

end Sys2Proof
end

