-- ==== Sys2Proof/Machine/State.lean ====
section
/-! DEFINITION. The state of FBCE (rule R16, the parameters of rule R8, the outputs of rules R28 and R29, the environment's inputs of rules R27, R29 and R30), its reset value (rule R31), and the reasons a step stops. -/

namespace Sys2Proof.Machine

open Sys2Proof

/-- `LIFE` (rule R17). The value 3 of its two bits is never held, so it has no constructor (DEDUCED, safe: log
entry 16). -/
inductive Life where
  | uninit
  | active
  | off
  deriving DecidableEq, Repr

/-- The 2-bit encoding of `LIFE` (rule R17). -/
def Life.code : Life → BitVec 2
  | .uninit => 0#2
  | .active => 1#2
  | .off => 2#2

/-- `SEG` while a stream is in progress (rule R26). -/
structure Seg where
  marker : Byte
  pos : BitVec 16
  len : BitVec 16
  deriving DecidableEq, Repr

/-- The frame store's bytes by index (rule R32): the pairs with a byte other than `0x00`, indices rising. -/
abbrev Memory := List Host.Cell

/-- A transaction record (rule R29). -/
structure Txn where
  addr : BusAddr
  bytes : List Byte
  ok : Bool
  deriving DecidableEq, Repr

/-- What the transport does with one transaction: it answers `ok`, or it never answers (rules R29, R100). -/
inductive BusAnswer where
  | answer (ok : Bool)
  | never
  deriving DecidableEq, Repr

/-- The state of FBCE with its parameters, its outputs and the inputs its environment has yet to give. -/
structure State where
  /-- `LIFE` (rule R17). -/
  life : Life
  /-- `ALLOC_FAIL` (rule R18). -/
  allocFail : Bool
  /-- `W` (rule R21). -/
  w : BitVec 9
  /-- `H` (rule R22). -/
  h : BitVec 9
  /-- `ADDR` (rule R23). -/
  addr : BusAddr
  /-- `FB` (rule R24). -/
  fb : Memory
  /-- `SEG`, absent while idle (rule R26; log entry 11). -/
  seg : Option Seg
  /-- The parameters (rule R8). -/
  params : Params
  /-- The transaction record, oldest first (rule R29). -/
  txns : List Txn
  /-- The result bit of each `done`, oldest first (rule R28; log entry 14). -/
  results : List Bool
  /-- What the host will present, oldest first (rule R27; log entry 8). The model's own field. -/
  inputs : List HostInput
  /-- The allocator's scripted answers, oldest first (rule R30; log entry 4). The model's own field. -/
  allocAnswers : List Bool
  /-- The transport's scripted answers, oldest first (rule R29; log entry 5). The model's own field. -/
  busAnswers : List BusAnswer
  /-- Which free value the next draw takes (rule R107; log entry 6). The model's own field. -/
  draws : Nat
  deriving DecidableEq, Repr

/-- Why the machine stops although the spec refuses nothing. -/
inductive Fault where
  /-- Raised by a step that meets a CMDLIST word whose payload never fully arrives, or not before a reset
  or another word: stuck (rule R100 item 1; log entries 7, 26). Safe. -/
  | awaitingPayload
  /-- Raised by any operation with a transaction that the transport never answers: stuck (rule R100 item 2; log
  entry 7). Safe. -/
  | transportSilent
  /-- Raised by a step that meets a payload byte where an operation word is expected: the host breaks its duty, which
  the spec leaves out (rule R113; log entry 9). Safe. -/
  | strayPayload
  /-- Raised by a pixel operation whose byte index lies outside the frame store, which no run reaches (rule R32; log
  entry 10). Safe. -/
  | outsideFrameStore
  deriving DecidableEq, Repr

/-- Why the machine refuses an operation: rule R98's codes, each with the offending word. -/
inductive Refusal where
  /-- `ILLEGAL_OP`: raised by decoding any word (rule R56). Safe. -/
  | illegalOp (word : OpWord)
  /-- `RESERVED_BITS`: raised by decoding a word with a legal `op` (rule R55). Safe. -/
  | reservedBits (word : OpWord)
  /-- `BAD_GEOMETRY`: raised by INIT (rule R90). Safe. -/
  | badGeometry (word : OpWord)
  /-- `REINIT`: raised by INIT while `LIFE` is not `UNINIT` (rule R91). Safe. -/
  | reinit (word : OpWord)
  /-- `BAD_CONFIG`: raised by every operation while `CHUNK_ENABLE = 1` and `M < 2` (rule R76). Safe. -/
  | badConfig (word : OpWord)
  /-- Raised by an arm of `exec` whose instruction has no meaning yet. Safe. -/
  | notModelled (mnemonic : String)
  deriving DecidableEq, Repr

/-- The code of a refusal (rule R98); the model's own rejection has none. -/
def Refusal.code : Refusal → Option Nat
  | .illegalOp _ => some 1
  | .reservedBits _ => some 2
  | .badGeometry _ => some 3
  | .reinit _ => some 4
  | .badConfig _ => some 5
  | .notModelled _ => none

/-- The outcome of an operation or a step. -/
abbrev Result := Host.Outcome State Fault Refusal

/-- The state right after reset (rules R31, R115). `W`, `H` and `ADDR` are 0 where the spec leaves them unspecified
(DESIGN CHOICE, unsafe: log entry 1); the parameters are as `Params.standard` configures them (log entry 2); the
environment has given nothing yet (log entries 4, 5, 6, 8). -/
def State.reset : State where
  life := .uninit
  allocFail := false
  w := 0
  h := 0
  addr := 0
  fb := []
  seg := none
  params := Params.standard
  txns := []
  results := []
  inputs := []
  allocAnswers := []
  busAnswers := []
  draws := 0

end Sys2Proof.Machine
end

