-- ==== Sys2Proof/Machine/Ops.lean ====
section
/-! DEFINITION. The named operations: the frame store's bytes, updates of one piece of state, the environment's draws, one bus transaction, the segmenter, the end of an operation, and reset. -/

namespace Sys2Proof.Machine

open Sys2Proof

/-! ### The frame store's bytes -/

/-- `FB[i]`: a byte that no pair lists is `0x00`, the value of a fresh store (rule R24). -/
def Memory.read : Memory → Nat → Byte
  | [], _ => 0
  | (a, b) :: m, i => if i = a then b else Memory.read m i

/-- `FB[i] <- v`, keeping indices rising and no listed byte `0x00`. -/
def Memory.write : Memory → Nat → Byte → Memory
  | [], i, v => if v = 0 then [] else [(i, v)]
  | (a, b) :: m, i, v =>
    if i < a then (if v = 0 then (a, b) :: m else (i, v) :: (a, b) :: m)
    else if i = a then (if v = 0 then m else (i, v) :: m)
    else (a, b) :: Memory.write m i v

/-- `FB[i] <- 0x00` for every `i` below `size` (rule R70). -/
def Memory.clearBelow (size : Nat) (m : Memory) : Memory :=
  m.filter fun c => decide (size ≤ c.1)

/-- The listed indices rise from `lo` on and no listed byte is `0x00`. -/
def Memory.risesFrom : Nat → Memory → Bool
  | _, [] => true
  | lo, (a, b) :: m => decide (lo ≤ a) && decide (b ≠ 0) && Memory.risesFrom (a + 1) m

/-- The canonical form: indices strictly rising and no listed byte equal to what an unlisted one reads as. -/
def Memory.wf (m : Memory) : Bool := Memory.risesFrom 0 m

/-- Every listed index lies below `size`. -/
def Memory.below (size : Nat) (m : Memory) : Bool := m.all fun c => decide (c.1 < size)

/-- `FB_SIZE`: `W * H div 8` bytes while the store is allocated, none while `LIFE = UNINIT` (rules R24, R25). -/
def State.fbSize (s : State) : Nat :=
  if s.life = .uninit then 0 else s.w.toNat * s.h.toNat / 8

/-- `FB[0 : FB_SIZE]`, ascending (rule R37). -/
def State.fbBytes (s : State) : List Byte := (List.range s.fbSize).map s.fb.read

/-! ### Updates of one piece of state -/

/-- `LIFE <- v`. -/
def State.setLife (s : State) (v : Life) : State := { s with life := v }

/-- `ALLOC_FAIL <- v`. -/
def State.setAllocFail (s : State) (v : Bool) : State := { s with allocFail := v }

/-- `W`, `H` and `ADDR` latched together (rule R91). -/
def State.latch (s : State) (w h : BitVec 9) (addr : BusAddr) : State := { s with w := w, h := h, addr := addr }

/-- `FB <- m`. -/
def State.setFb (s : State) (m : Memory) : State := { s with fb := m }

/-- `SEG <- v`. -/
def State.setSeg (s : State) (v : Option Seg) : State := { s with seg := v }

/-- One more transaction record (rule R29). -/
def State.emit (s : State) (t : Txn) : State := { s with txns := s.txns ++ [t] }

/-- `done` with the result bit `r` (rule R28). -/
def State.respond (s : State) (r : Bool) : State := { s with results := s.results ++ [r] }

/-- What the host has yet to present. -/
def State.setInputs (s : State) (l : List HostInput) : State := { s with inputs := l }

/-- The transport's answers still to come, and the draw counter. -/
def State.setBus (s : State) (l : List BusAnswer) (draws : Nat) : State := { s with busAnswers := l, draws := draws }

/-- The allocator's answers still to come, and the draw counter. -/
def State.setAlloc (s : State) (l : List Bool) (draws : Nat) : State := { s with allocAnswers := l, draws := draws }

/-! ### The environment's draws (rule R107) -/

/-- `draw alloc_ok` (rule R30): the next scripted answer, else the next free value. -/
def State.drawAlloc (s : State) : Bool × State :=
  match s.allocAnswers with
  | a :: rest => (a, s.setAlloc rest s.draws)
  | [] => (Config.allocOk s.draws, s.setAlloc [] (s.draws + 1))

/-- The transport's answer to a transaction (rule R29): the next scripted answer, else the next free value. -/
def State.drawBus (s : State) : BusAnswer × State :=
  match s.busAnswers with
  | a :: rest => (a, s.setBus rest s.draws)
  | [] => (.answer (Config.busOk s.draws), s.setBus [] (s.draws + 1))

/-! ### The progress of an operation that emits transactions -/

/-- Where an operation stands after some of its transactions: it goes on, it was ended by `abort` (rule R80), or it
waits for a transport that never answers (rule R100). -/
inductive Flow where
  | going (s : State)
  | aborted (s : State)
  | waiting
  deriving DecidableEq, Repr

/-- The rest of an operation runs only while the operation goes on. -/
def Flow.andThen (f : Flow) (next : State → Flow) : Flow :=
  match f with
  | .going s => next s
  | .aborted s => .aborted s
  | .waiting => .waiting

/-- The same update of the state, whether the operation goes on or was ended by `abort`. -/
def Flow.mapState (f : Flow) (upd : State → State) : Flow :=
  match f with
  | .going s => .going (upd s)
  | .aborted s => .aborted (upd s)
  | .waiting => .waiting

/-- `done` with the result `r` at the operation's end, an `abort` included (rules R28, R80, R97); stuck if the transport
never answers (rule R100). -/
def Flow.finish (r : Bool) (f : Flow) : Result :=
  match f with
  | .going s => .next (s.respond r)
  | .aborted s => .next (s.respond r)
  | .waiting => .fault .transportSilent

/-- `done` with the result `r`. -/
def finish (r : Bool) (s : State) : Result := .next (s.respond r)

/-! ### The bus and the segmenter -/

/-- `Transact(ADDR, bytes)` (rule R75), then `abort` if the transport answers false under ABORT_OP (rule R80). -/
def transact (bytes : List Byte) (s : State) : Flow :=
  match s.drawBus with
  | (.answer ok, s') =>
    if s'.params.onBusFail = .abortOp ∧ ok = false
    then .aborted (s'.emit ⟨s'.addr, bytes, ok⟩)
    else .going (s'.emit ⟨s'.addr, bytes, ok⟩)
  | (.never, _) => .waiting

/-- `P`, the payload bytes per transaction of a stream of `len` bytes (rules R76, R77, R81). -/
def chunkSize (p : Params) (len : Nat) : Nat :=
  if p.chunkEnable then p.maxTxn - 1 else max len 1

/-- The `while` of rule R77 with its cursor in `SEG`; `fuel` bounds the iterations and `bytes.length` of it is enough,
since every iteration moves the cursor on. The cursor never passes `SEG.len`, so its 16 bits do not wrap. -/
def streamLoop (chunk : Nat) (bytes : List Byte) : Nat → State → Flow
  | 0, s => .going s
  | fuel + 1, s =>
    match s.seg with
    | none => .going s
    | some g =>
      if g.pos.toNat < g.len.toNat then
        let n := min chunk (g.len.toNat - g.pos.toNat)
        (transact (g.marker :: (bytes.drop g.pos.toNat).take n) s).andThen fun s' =>
          streamLoop chunk bytes fuel (s'.setSeg (some { g with pos := g.pos + BitVec.ofNat 16 n }))
      else .going s

/-- `Stream(marker, bytes)`, the segmenter (rule R77), of at most 65535 bytes (rule R26; log entry 11). `SEG` is idle
afterwards, after an `abort` too (rule R26; log entry 13). -/
def stream (marker : Byte) (bytes : List Byte) (s : State) : Flow :=
  (streamLoop (chunkSize s.params bytes.length) bytes bytes.length
      (s.setSeg (some ⟨marker, 0, BitVec.ofNat 16 bytes.length⟩))).mapState (·.setSeg none)

/-- `Stream(marker, G)` for each group `G` in order (rule R92). -/
def streamGroups (marker : Byte) : List CommandGroup → State → Flow
  | [], s => .going s
  | g :: gs, s => (stream marker g.bytes s).andThen (streamGroups marker gs)

/-! ### Reset -/

/-- Reset as an event (rules R115, R116): every piece of state at its value of rule R31, the parameters and the
environment's answers as they are. `W`, `H` and `ADDR` become 0 (DESIGN CHOICE, unsafe: log entry 1). -/
def State.resetEvent (s : State) : State :=
  { s with
    life := .uninit, allocFail := false, w := 0, h := 0, addr := 0, fb := [], seg := none, txns := [], results := [] }

end Sys2Proof.Machine
end

