-- ==== Sys2Proof/Machine/Flags.lean ====
section
/-! DEFINITION. The conditions every operation is checked against. FBCE's one flag is `ALLOC_FAIL` (rule R20), which INIT alone writes; here stand the configuration check, the gate that reads the flag, and the legal geometry. -/

namespace Sys2Proof.Machine

open Sys2Proof

/-- The configuration that refuses every operation: `CHUNK_ENABLE = 1` and `M < 2` (rules R76, R118). -/
def State.configBad (s : State) : Bool := s.params.chunkEnable && decide (s.params.maxTxn < 2)

/-- The gate's condition, `ALLOC_FAIL = 1 or LIFE = UNINIT` (rule R89). -/
def State.gateClosed (s : State) : Bool := s.allocFail || decide (s.life = .uninit)

/-- `legal_geometry(width, height)` (rule R90). -/
def legalGeometry (width height : Nat) : Bool :=
  decide (1 ≤ width) && decide (width ≤ 256) && decide (8 ≤ height) && decide (height ≤ 256) && decide (height % 8 = 0)

/-- The operation `i` under the configuration check, the first of rule R103. -/
def configured (i : Instr) (s : State) (body : State → Result) : Result :=
  if s.configBad then .refused (.badConfig (encodeWord i)) else body s

/-- The operation `i` under the configuration check and the gate (rules R89, R99): a no-op answers result 0. -/
def gated (i : Instr) (s : State) (body : State → Result) : Result :=
  configured i s fun s => if s.gateClosed then finish false s else body s

end Sys2Proof.Machine
end

