-- ==== Sys2Proof/Machine/Operands.lean ====
section
/-! DEFINITION. Operand forms: signed coordinates, the clip test, the page-packed place of a pixel, bits of a byte, the colour reduction, the mode markers and the addressing window. -/

namespace Sys2Proof.Machine

open Sys2Proof

/-- A coordinate field read as a signed number, `sext_16` (rule R54). -/
def coord (v : Field16) : Int := v.toInt

/-- The clip test (rule R65). -/
def State.inRange (s : State) (x y : Int) : Bool :=
  decide (0 ≤ x) && decide (x < s.w.toNat) && decide (0 ≤ y) && decide (y < s.h.toNat)

/-- `index(x, y)` in a frame of width `w` (rule R33). -/
def pixelIndex (w x y : Nat) : Nat := x + y / 8 * w

/-- `bit(x, y)` (rule R33). -/
def pixelBit (y : Nat) : Nat := y % 8

/-- The one-hot byte `1 << k` (rule R10). -/
def bitMask (k : Nat) : Byte := 1#8 <<< k

/-- The byte with bit `k` set or cleared (rule R66). -/
def putBit (b : Byte) (k : Nat) (on : Bool) : Byte :=
  if on then b ||| bitMask k else b &&& ~~~(bitMask k)

/-- `(b >> k) & 1` (rule R33). -/
def takeBit (b : Byte) (k : Nat) : Bool := decide ((b >>> k) &&& 1#8 = 1#8)

/-- `pixel(x, y)` (rule R33). -/
def State.pixel (s : State) (x y : Nat) : Bool :=
  takeBit (s.fb.read (pixelIndex s.w.toNat x y)) (pixelBit y)

/-- `MONO(r, g, b)` (rule R67). -/
def mono (rule : MonoRule) (r g b : Byte) : Bool :=
  match rule with
  | .sumGt => decide (127 < r.toNat + g.toNat + b.toNat)
  | .orGt => decide (127 < (r ||| g ||| b).toNat)
  | .cPrec => decide (r ||| g ||| (if 127 < b.toNat then 1#8 else 0#8) ≠ 0#8)

/-- The command marker (rule R61). -/
def cmdMarker : Byte := 0x00#8

/-- The data marker (rule R61). -/
def dataMarker : Byte := 0x40#8

/-- `WINDOW`, the addressing-window list (rule R84), with `PAGES = H div 8` (rule R22). -/
def State.window (s : State) : List Byte :=
  [0x21#8, 0x00#8, BitVec.ofNat 8 (s.w.toNat - 1), 0x22#8, 0x00#8, BitVec.ofNat 8 (s.h.toNat / 8 - 1)]

end Sys2Proof.Machine
end

