-- ==== Sys2Proof/Machine/FrameStore.lean ====
section
/-! DEFINITION. The Frame Store's operations: SETPX, SETRGB, GETPX, CLEAR (rules R65 to R70). -/

namespace Sys2Proof.Machine

open Sys2Proof

/-- The body of SETPX after the clip test (rule R66), which SETRGB shares (rule R68). -/
def writePixel (x y : Nat) (on : Bool) (s : State) : Result :=
  let i := pixelIndex s.w.toNat x y
  if i < s.fbSize then finish false (s.setFb (s.fb.write i (putBit (s.fb.read i) (pixelBit y) on)))
  else .fault .outsideFrameStore

/-- SETPX (rule R66). -/
def execSetpx (x y : Field16) (on : Bool) (s : State) : Result :=
  gated (.setpx x y on) s fun s =>
    if s.inRange (coord x) (coord y) then writePixel (coord x).toNat (coord y).toNat on s else finish false s

/-- SETRGB (rule R68). -/
def execSetrgb (x y : Field16) (r g b : Byte) (s : State) : Result :=
  gated (.setrgb x y r g b) s fun s =>
    if s.inRange (coord x) (coord y)
    then writePixel (coord x).toNat (coord y).toNat (mono s.params.monoRule r g b) s
    else finish false s

/-- The body of GETPX after the clip test (rule R69). -/
def readPixel (x y : Nat) (s : State) : Result :=
  if pixelIndex s.w.toNat x y < s.fbSize then finish (s.pixel x y) s else .fault .outsideFrameStore

/-- GETPX (rule R69): the gate's no-op and the clip's both answer 0. -/
def execGetpx (x y : Field16) (s : State) : Result :=
  gated (.getpx x y) s fun s =>
    if s.inRange (coord x) (coord y) then readPixel (coord x).toNat (coord y).toNat s else finish false s

/-- CLEAR (rule R70). Its bound `FB_SIZE` is computed from `W` and `H` (rule R25), which rule R16's matrix does not mark
for CLEAR (DEDUCED, safe: log entry 28). -/
def execClear (s : State) : Result :=
  gated .clear s fun s => finish false (s.setFb (s.fb.clearBelow s.fbSize))

end Sys2Proof.Machine
end

