-- ==== Sys2Proof/Machine/CommandEngine.lean ====
section
/-! DEFINITION. The Command Protocol Encoder's operations: CMD, CMDLIST, FLUSH (rules R82 to R85). -/

namespace Sys2Proof.Machine

open Sys2Proof

/-- CMD (rule R82). Its one transaction goes through the segmenter, `Stream(0x00, [c])`, which rule R82 says emits
exactly the same and by which CMD reads and writes `SEG` (rule R16; DEDUCED, safe: log entry 12). -/
def execCmd (c : Byte) (s : State) : Result :=
  gated (.cmd c) s fun s => (stream cmdMarker [c] s).finish false

/-- CMDLIST (rule R83). -/
def execCmdlist (payload : List Byte) (s : State) : Result :=
  gated (.cmdlist payload) s fun s => (stream cmdMarker payload s).finish false

/-- The body of FLUSH: the window, then the frame store in ascending order (rule R85). INIT ends with it (rule R91). -/
def flushBody (s : State) : Flow :=
  (stream cmdMarker s.window s).andThen fun s => stream dataMarker s.fbBytes s

/-- FLUSH (rule R85). -/
def execFlush (s : State) : Result :=
  gated .flush s fun s => (flushBody s).finish false

end Sys2Proof.Machine
end

