-- ==== Sys2Proof/Machine/InitTable.lean ====
section
/-! DEFINITION. What an `INIT_TABLE` gives for a geometry (rules R92, R93). -/

namespace Sys2Proof.Machine

open Sys2Proof

/-- The group of a command without an argument. -/
def group1 (command : Byte) : CommandGroup := ⟨[command], by simp, by simp⟩

/-- The group of a command and its argument. -/
def group2 (command argument : Byte) : CommandGroup := ⟨[command, argument], by simp, by simp⟩

/-- The informative table of rule R93, whose argument values the spec takes from general knowledge (log entry 24). -/
def standardGroups (height : Nat) : List CommandGroup :=
  [group2 0xD5#8 0x80#8, group2 0xA8#8 (BitVec.ofNat 8 (height - 1)), group2 0xD3#8 0x00#8, group1 0x40#8,
   group2 0x8D#8 0x14#8, group2 0x20#8 0x00#8, group1 0xA1#8, group1 0xC8#8,
   group2 0xDA#8 (if height = 32 then 0x02#8 else 0x12#8), group2 0x81#8 0xCF#8, group2 0xD9#8 0xF1#8,
   group2 0xDB#8 0x40#8, group1 0xA4#8, group1 0xA6#8, group1 0x2E#8]

/-- The groups that a list of rows gives for a geometry; a geometry without a row has an empty table. -/
def rowGroups : List InitRow → Nat → Nat → List CommandGroup
  | [], _, _ => []
  | r :: rows, width, height => if r.width = width ∧ r.height = height then r.groups else rowGroups rows width height

/-- `INIT_TABLE(W, H)` (rule R92). -/
def tableGroups (t : InitTable) (width height : Nat) : List CommandGroup :=
  match t with
  | .standard => standardGroups height
  | .listed rows => rowGroups rows width height

end Sys2Proof.Machine
end

