-- ==== Sys2Proof/Machine/Lifecycle.lean ====
section
/-! DEFINITION. The lifecycle operations: INIT and SHUTDOWN (rules R88 to R95). -/

namespace Sys2Proof.Machine

open Sys2Proof

/-- The state INIT has written before its first transaction (rule R91): geometry and address latched, the frame store
allocated and zero-filled, `LIFE = ACTIVE`, the store cleared. -/
def State.allocate (s : State) (width height : Field16) (addr : BusAddr) : State :=
  let a := ((s.latch (width.setWidth 9) (height.setWidth 9) addr).setFb []).setLife .active
  a.setFb (a.fb.clearBelow a.fbSize)

/-- INIT's transactions (rule R91): the init table's groups, display-on, then the body of FLUSH. -/
def bringUp (s : State) : Flow :=
  (streamGroups cmdMarker (tableGroups s.params.initTable s.w.toNat s.h.toNat) s).andThen fun s =>
    (transact [cmdMarker, 0xAF#8] s).andThen flushBody

/-- INIT (rule R91). -/
def execInit (width height : Field16) (addr : BusAddr) (s : State) : Result :=
  configured (.init width height addr) s fun s =>
    if ¬legalGeometry width.toNat height.toNat then .refused (.badGeometry (encodeWord (.init width height addr)))
    else if s.allocFail then finish false s
    else if s.life ≠ .uninit then .refused (.reinit (encodeWord (.init width height addr)))
    else if s.drawAlloc.1 = true ∧ width.toNat * height.toNat / 8 ≤ s.params.fbBytesMax then
      (bringUp (s.drawAlloc.2.allocate width height addr)).finish true
    else finish false (s.drawAlloc.2.setAllocFail true)

/-- SHUTDOWN (rule R95). Display-off goes through the segmenter as CMD's byte does, by which SHUTDOWN reads and writes
`SEG` (rule R16; DEDUCED, safe: log entry 12). -/
def execShutdown (s : State) : Result :=
  gated .shutdown s fun s => (stream cmdMarker [0xAE#8] (s.setLife .off)).finish false

end Sys2Proof.Machine
end

