-- ==== Sys2Proof/Machine/Dispatch.lean ====
section
/-! DEFINITION. exec: one arm per operation, each one call of its meaning. -/

namespace Sys2Proof.Machine

open Sys2Proof

/-- The outcome of the operation `i` in the state `s` (rule R97). -/
def exec (i : Instr) (s : State) : Host.Outcome State Fault Refusal :=
  match i with
  | .init width height addr => Sys2Proof.Machine.execInit width height addr s
  | .shutdown => Sys2Proof.Machine.execShutdown s
  | .setpx x y on => Sys2Proof.Machine.execSetpx x y on s
  | .setrgb x y r g b => Sys2Proof.Machine.execSetrgb x y r g b s
  | .getpx x y => Sys2Proof.Machine.execGetpx x y s
  | .clear => Sys2Proof.Machine.execClear s
  | .flush => Sys2Proof.Machine.execFlush s
  | .cmd c => Sys2Proof.Machine.execCmd c s
  | .cmdlist payload => Sys2Proof.Machine.execCmdlist payload s

end Sys2Proof.Machine
end

