-- ==== Sys2Proof/Machine/Fetch.lean ====
section
/-! DEFINITION. What FBCE takes from the host port next (rules R27, R53, R103, R117). -/

namespace Sys2Proof.Machine

open Sys2Proof

/-- What the host port gives: nothing (FBCE waits), a reset, an operation to run, or a stop. -/
inductive Fetched where
  | waiting
  | reset (s : State)
  | run (i : Instr) (s : State)
  | refused (r : Refusal)
  | stuck (f : Fault)
  deriving DecidableEq, Repr

/-- The operation that a word presents (rule R57), under the priorities of rule R103, with its word and payload taken
from the port. A reset, or another word, that comes before a CMDLIST's payload is complete is never taken: the machine
is stuck (DESIGN CHOICE, safe: log entry 26). -/
def fetchOp (word : OpWord) (following : List HostInput) (s : State) : Fetched :=
  if s.configBad then .refused (.badConfig word)
  else match decode word following with
    | .instr i rest => .run i (s.setInputs rest)
    | .illegalOp => .refused (.illegalOp word)
    | .reservedBits => .refused (.reservedBits word)
    | .awaitingPayload => .stuck .awaitingPayload

/-- The next input of the host port (rule R27). With none, FBCE waits (rule R115). A reset between operations is
accepted (rule R117). -/
def fetch (s : State) : Fetched :=
  match s.inputs with
  | [] => .waiting
  | .reset :: rest => .reset (s.setInputs rest).resetEvent
  | .payload _ :: _ => .stuck .strayPayload
  | .op word :: following => fetchOp word following s

end Sys2Proof.Machine
end

