-- ==== Sys2Proof/Machine/Step.lean ====
section
/-! DEFINITION. One step: the next input of the host port, run to its end (rules R7, R41), and how the host places an operation there. -/

namespace Sys2Proof.Machine

open Sys2Proof

/-- One step of FBCE. With nothing on the host port FBCE waits in the state it is in (DESIGN CHOICE, safe: log
entry 8). -/
def step (s : State) : Host.Outcome State Fault Refusal :=
  match fetch s with
  | .waiting => .next s
  | .reset s' => .next s'
  | .run i s' => exec i s'
  | .refused r => .refused r
  | .stuck f => .fault f

/-- `s` with the operation whose bits are `w` next on the host port, with its payload bytes (log entries 19, 20). -/
def State.withFetchWord (s : State) (nbits w : Nat) : State :=
  s.setInputs (tableInputs nbits w ++ s.inputs)

end Sys2Proof.Machine
end

