-- ==== Sys2Proof/Machine/Assembler.lean ====
section
/-! DEFINITION. The assembler syntax (rule R58) with the pseudo-operations (rule R59): from a line of text to an operation. What the spec leaves open of the text is DESIGN CHOICE, safe (log entry 25). -/

namespace Sys2Proof

/-! ### A line's tokens -/

/-- Whether a token is a comma or a bracket. -/
def isMark (token : List Char) : Bool := token == [','] || token == ['['] || token == [']']

/-- A token read so far, backwards, if there is one. -/
def endToken (read : List Char) : List (List Char) := if read = [] then [] else [read.reverse]

/-- The tokens of a line up to its comment; `read` is the token in progress, backwards. -/
def tokensFrom : List Char → List Char → List (List Char)
  | read, [] => endToken read
  | read, c :: rest =>
    if c = ';' then endToken read
    else if c = ' ' ∨ c = '\t' then endToken read ++ tokensFrom [] rest
    else if c = ',' ∨ c = '[' ∨ c = ']' then endToken read ++ [c] :: tokensFrom [] rest
    else tokensFrom (c :: read) rest

/-- The tokens between commas; none where a comma or an operand is missing. -/
def commaList : List (List Char) → Option (List (List Char))
  | [] => some []
  | [token] => if isMark token then none else some [token]
  | token :: sep :: rest =>
    if isMark token ∨ sep ≠ [','] ∨ rest = [] then none
    else (commaList rest).map (token :: ·)

/-! ### Numbers -/

/-- The value of a digit below `base`. -/
def digit (base : Nat) (c : Char) : Option Nat :=
  let v :=
    if '0' ≤ c ∧ c ≤ '9' then c.toNat - '0'.toNat
    else if 'a' ≤ c ∧ c ≤ 'f' then c.toNat - 'a'.toNat + 10
    else if 'A' ≤ c ∧ c ≤ 'F' then c.toNat - 'A'.toNat + 10
    else base
  if v < base then some v else none

/-- The number whose digits follow those of `read`. -/
def digitsFrom (base : Nat) : Nat → List Char → Option Nat
  | read, [] => some read
  | read, c :: rest =>
    match digit base c with
    | some v => digitsFrom base (base * read + v) rest
    | none => none

/-- A number without a sign: decimal, or hexadecimal with `0x`. -/
def number (token : List Char) : Option Nat :=
  match token with
  | [] => none
  | '0' :: 'x' :: c :: rest => digitsFrom 16 0 (c :: rest)
  | c :: rest => digitsFrom 10 0 (c :: rest)

/-- A coordinate: decimal with an optional sign, or hexadecimal with `0x`. -/
def signedNumber (token : List Char) : Option Int :=
  match token with
  | '-' :: c :: rest => (digitsFrom 10 0 (c :: rest)).map fun v : Nat => -(v : Int)
  | '+' :: c :: rest => (digitsFrom 10 0 (c :: rest)).map fun v : Nat => (v : Int)
  | token => (number token).map fun v : Nat => (v : Int)

/-- An operand of an `n`-bit field; none where it is outside the field's range. -/
def fieldOperand (n : Nat) (token : List Char) : Option (BitVec n) :=
  match number token with
  | some v => if v < 2 ^ n then some (BitVec.ofNat n v) else none
  | none => none

/-- A coordinate, -32768 to 32767. -/
def coordOperand (token : List Char) : Option Field16 :=
  match signedNumber token with
  | some v => if -32768 ≤ v ∧ v ≤ 32767 then some (BitVec.ofInt 16 v) else none
  | none => none

/-! ### Operations -/

/-- The mnemonics of rule R58, then the pseudo-operations of rule R59 that have one of their own. -/
inductive Mnemonic where
  | init
  | shutdown
  | setpx
  | setrgb
  | getpx
  | clear
  | flush
  | cmd
  | cmdlist
  | clrpx
  | dispon
  | dispoff
  deriving DecidableEq, Repr

/-- How each mnemonic is spelled. -/
def spellings : List (List Char × Mnemonic) :=
  [(['I', 'N', 'I', 'T'], .init), (['S', 'H', 'U', 'T', 'D', 'O', 'W', 'N'], .shutdown),
   (['S', 'E', 'T', 'P', 'X'], .setpx), (['S', 'E', 'T', 'R', 'G', 'B'], .setrgb), (['G', 'E', 'T', 'P', 'X'], .getpx),
   (['C', 'L', 'E', 'A', 'R'], .clear), (['F', 'L', 'U', 'S', 'H'], .flush), (['C', 'M', 'D'], .cmd),
   (['C', 'M', 'D', 'L', 'I', 'S', 'T'], .cmdlist), (['C', 'L', 'R', 'P', 'X'], .clrpx),
   (['D', 'I', 'S', 'P', 'O', 'N'], .dispon), (['D', 'I', 'S', 'P', 'O', 'F', 'F'], .dispoff)]

/-- The mnemonic a token spells. -/
def mnemonicOf (token : List Char) : Option Mnemonic :=
  (spellings.find? fun e => e.1 == token).map Prod.snd

/-- `SETPX` with its three operands. -/
def assembleSetpx (x y on : List Char) : Option Instr := do
  let x ← coordOperand x
  let y ← coordOperand y
  let on ← fieldOperand 1 on
  return .setpx x y (on == 1#1)

/-- The operation of a mnemonic and its operands, pseudo-operations included (rules R58, R59). CMDLIST's operands are
the bytes between its brackets. -/
def assembleOp (mnemonic : Mnemonic) (operands : List (List Char)) : Option Instr :=
  match mnemonic, operands with
  | .init, [width, height, addr] => do
    return .init (← fieldOperand 16 width) (← fieldOperand 16 height) (← fieldOperand 7 addr)
  | .shutdown, [] => some .shutdown
  | .setpx, [x, y, on] => assembleSetpx x y on
  | .setpx, [x, y] => assembleSetpx x y ['1']
  | .clrpx, [x, y] => assembleSetpx x y ['0']
  | .setrgb, [x, y, r, g, b] => do
    return .setrgb (← coordOperand x) (← coordOperand y) (← fieldOperand 8 r) (← fieldOperand 8 g)
      (← fieldOperand 8 b)
  | .getpx, [x, y] => do
    return .getpx (← coordOperand x) (← coordOperand y)
  | .clear, [] => some .clear
  | .flush, [] => some .flush
  | .cmd, [c] => do
    return .cmd (← fieldOperand 8 c)
  | .dispon, [] => some (.cmd 0xAF#8)
  | .dispoff, [] => some (.cmd 0xAE#8)
  | .cmdlist, bytes =>
    match bytes.mapM (fieldOperand 8) with
    | some payload => if payload.length ≤ 65535 then some (.cmdlist payload) else none
    | none => none
  | _, _ => none

/-- What stands between the brackets of a bracketed list. -/
def bracketed (tokens : List (List Char)) : Option (List (List Char)) :=
  if tokens.head? = some ['['] ∧ 2 ≤ tokens.length ∧ tokens.getLast? = some [']'] then some tokens.tail.dropLast
  else none

/-- The tokens that hold a mnemonic's operands: CMDLIST takes a bracketed list, every other operation a list without
brackets. -/
def operandTokens (mnemonic : Mnemonic) (tokens : List (List Char)) : Option (List (List Char)) :=
  if mnemonic = .cmdlist then bracketed tokens else some tokens

/-- The operation of a line's tokens. -/
def assembleTokens (tokens : List (List Char)) : Option Instr :=
  match tokens with
  | [] => none
  | token :: rest =>
    match mnemonicOf token with
    | some mnemonic => ((operandTokens mnemonic rest).bind commaList).bind (assembleOp mnemonic)
    | none => none

/-- The operation of a line of text (rule R58); none for a line that holds no operation or does not assemble. -/
def assemble (line : List Char) : Option Instr := assembleTokens (tokensFrom [] line)

end Sys2Proof
end

