-- ==== Sys2Proof/Safety.lean ====
section
/-! DEFINITION. The terms claims are stated in: the conditions an operation runs under, the transactions an operation plans in closed form and what the bus makes of a plan, the invariants of every step, and lines of the assembler. -/

namespace Sys2Proof.Machine

open Sys2Proof

/-! ### Conditions on a state -/

/-- No `BAD_CONFIG`: `CHUNK_ENABLE = 0` or `M ≥ 2` (rule R76). -/
abbrev State.Configured (s : State) : Prop := s.params.chunkEnable = true → 2 ≤ s.params.maxTxn

/-- The gate lets operations through: `ALLOC_FAIL = 0` and `LIFE ≠ UNINIT` (rule R89). -/
abbrev State.Allocated (s : State) : Prop := s.allocFail = false ∧ s.life ≠ .uninit

/-- The coordinate `(x, y)`, signed numbers, is in range (rule R65). -/
abbrev State.Holds (s : State) (x y : Int) : Prop := 0 ≤ x ∧ x < s.w.toNat ∧ 0 ≤ y ∧ y < s.h.toNat

/-- `legal_geometry(width, height)` (rule R90). -/
abbrev LegalGeometry (width height : Nat) : Prop :=
  1 ≤ width ∧ width ≤ 256 ∧ 8 ≤ height ∧ height ≤ 256 ∧ height % 8 = 0

/-- The transport answers each of the next `n` transactions (the fairness assumption of rule R124). -/
abbrev State.AnswersFirst (s : State) (n : Nat) : Prop := ∀ a ∈ s.busAnswers.take n, a ≠ .never

/-- The run has ended: the host has nothing further to present, and every operation taken has answered (rule R114). That
a reset still to come keeps it from having ended is DESIGN CHOICE (log entry 27). -/
abbrev State.Ended (s : State) : Prop := s.inputs = []

/-! ### What an operation plans to send, in closed form -/

/-- `K = ceil(L / P)` (rule R78). -/
def chunkCount (p : Params) (len : Nat) : Nat := (len + chunkSize p len - 1) / chunkSize p len

/-- The transactions of `Stream(marker, B)`: number `j` carries `[marker] ++ B[j*P : min((j+1)*P, L)]` (rule R78). -/
def chunkPlan (p : Params) (marker : Byte) (bytes : List Byte) : List (List Byte) :=
  (List.range (chunkCount p bytes.length)).map fun j =>
    marker :: (bytes.drop (j * chunkSize p bytes.length)).take (chunkSize p bytes.length)

/-- The addressing-window list of a `w` by `h` frame (rule R84). -/
def windowOf (w h : Nat) : List Byte :=
  [0x21#8, 0x00#8, BitVec.ofNat 8 (w - 1), 0x22#8, 0x00#8, BitVec.ofNat 8 (h / 8 - 1)]

/-- The transactions of FLUSH for a `w` by `h` frame with these bytes (rule R85). -/
def flushPlan (p : Params) (w h : Nat) (bytes : List Byte) : List (List Byte) :=
  chunkPlan p 0x00#8 (windowOf w h) ++ chunkPlan p 0x40#8 bytes

/-- The transactions of a successful INIT (rule R91). -/
def initPlan (p : Params) (w h : Nat) : List (List Byte) :=
  (tableGroups p.initTable w h).flatMap (fun g => chunkPlan p 0x00#8 g.bytes) ++ [[0x00#8, 0xAF#8]] ++
    flushPlan p w h (List.replicate (w * h / 8) 0x00#8)

/-- The most transactions an operation sends, for a `w` by `h` frame latched before it (rule R124). -/
def transactionBound (p : Params) (w h : Nat) : Instr → Nat
  | .init width height _ => (initPlan p width.toNat height.toNat).length
  | .shutdown => 1
  | .setpx _ _ _ => 0
  | .setrgb _ _ _ _ _ => 0
  | .getpx _ _ => 0
  | .clear => 0
  | .flush => chunkCount p 6 + chunkCount p (w * h / 8)
  | .cmd _ => 1
  | .cmdlist _ => chunkCount p 65535

/-! ### What the bus makes of a plan -/

/-- The transport's answer to the transaction `j` from now: scripted, else a free value (rule R107). A transaction that
is never answered has no answer; `false` stands for it here. -/
def State.reply (s : State) (j : Nat) : Bool :=
  match s.busAnswers[j]? with
  | some (.answer ok) => ok
  | some .never => false
  | none => Config.busOk (s.draws + (j - s.busAnswers.length))

/-- How many transactions of a plan of `n` are emitted: all under CONTINUE, and up to the first failed one under
ABORT_OP (rule R80). -/
def State.sent (s : State) (n : Nat) : Nat :=
  match s.params.onBusFail with
  | .keepGoing => n
  | .abortOp =>
    match (List.range n).find? fun j => !s.reply j with
    | some j => j + 1
    | none => n

/-- The transaction records that a plan leaves (rules R29, R80). -/
def State.records (s : State) (plan : List (List Byte)) : List Txn :=
  ((plan.take (s.sent plan.length)).zipIdx).map fun e => ⟨s.addr, e.1, s.reply e.2⟩

/-- The state after a plan: its records emitted, and as many of the transport's answers used up. -/
def State.afterPlan (s : State) (plan : List (List Byte)) : State :=
  { s with
    txns := s.txns ++ s.records plan
    busAnswers := s.busAnswers.drop (s.sent plan.length)
    draws := s.draws + (s.sent plan.length - s.busAnswers.length) }

/-- A plan of `n` transactions runs to its end: CONTINUE, or every answer is true (rule R78). -/
abbrev State.RunsToEnd (s : State) (n : Nat) : Prop :=
  s.params.onBusFail = .keepGoing ∨ ∀ j, j < n → s.reply j = true

/-! ### What an operation starts from -/

/-- The allocator's answer to the next INIT that reaches allocation: scripted, else a free value (rules R30, R107). -/
def State.allocReply (s : State) : Bool :=
  match s.allocAnswers with
  | a :: _ => a
  | [] => Config.allocOk s.draws

/-- The state after the allocator's answer is used up. -/
def State.afterAllocDraw (s : State) : State :=
  { s with allocAnswers := s.allocAnswers.tail, draws := s.draws + (1 - s.allocAnswers.length) }

/-- What INIT has written before its first transaction when the allocation succeeds (rule R91): an empty list is the
zero-filled frame store. -/
def State.afterAlloc (s : State) (width height : Nat) (addr : BusAddr) : State :=
  { s.afterAllocDraw with
    life := .active, w := BitVec.ofNat 9 width, h := BitVec.ofNat 9 height, addr := addr, fb := [] }

/-- The transactions an operation plans when it performs (rules R82, R83, R85, R91, R95). -/
def State.plan (s : State) : Instr → List (List Byte)
  | .init width height _ => initPlan s.params width.toNat height.toNat
  | .shutdown => [[0x00#8, 0xAE#8]]
  | .setpx _ _ _ => []
  | .setrgb _ _ _ _ _ => []
  | .getpx _ _ => []
  | .clear => []
  | .flush => flushPlan s.params s.w.toNat s.h.toNat s.fbBytes
  | .cmd c => [[0x00#8, c]]
  | .cmdlist payload => chunkPlan s.params 0x00#8 payload

/-- When an operation gets past its checks and performs (rule R103 item 9): for INIT, with the allocation succeeding. -/
def State.Performs (s : State) : Instr → Prop
  | .init width height _ =>
    s.seg = none ∧ s.allocFail = false ∧ s.life = .uninit ∧ LegalGeometry width.toNat height.toNat ∧
      s.allocReply = true ∧ width.toNat * height.toNat / 8 ≤ s.params.fbBytesMax
  | .shutdown => s.Allocated
  | .setpx x y _ => s.Allocated ∧ s.Holds x.toInt y.toInt
  | .setrgb x y _ _ _ => s.Allocated ∧ s.Holds x.toInt y.toInt
  | .getpx x y => s.Allocated ∧ s.Holds x.toInt y.toInt
  | .clear => s.Allocated
  | .flush => s.Allocated
  | .cmd _ => s.Allocated
  | .cmdlist payload => s.Allocated ∧ payload.length ≤ 65535

/-- Whether bit `k` is reserved in the format of `op` (rules R47 to R52). -/
def reservedBit (op k : Nat) : Bool :=
  match op with
  | 1 => decide (47 ≤ k) || decide (4 ≤ k ∧ k < 8)
  | 2 => decide (4 ≤ k)
  | 3 => decide (40 ≤ k) || decide (5 ≤ k ∧ k < 8)
  | 4 => decide (4 ≤ k ∧ k < 8)
  | 5 => decide (40 ≤ k) || decide (4 ≤ k ∧ k < 8)
  | 6 => decide (4 ≤ k)
  | 7 => decide (4 ≤ k)
  | 8 => decide (16 ≤ k) || decide (4 ≤ k ∧ k < 8)
  | 9 => decide (24 ≤ k) || decide (4 ≤ k ∧ k < 8)
  | _ => false

/-! ### Invariants of every step -/

/-- The frame store is in its canonical form inside `FB_SIZE` (rules R24, R32), `SEG` is idle between operations
(rule R26), a failed allocation leaves `LIFE = UNINIT` (rule R18), and an allocated frame has a legal geometry
(rules R21, R22, R90). -/
abbrev State.Inv (s : State) : Prop :=
  s.fb.wf = true ∧ s.fb.below s.fbSize = true ∧ s.seg = none ∧ (s.allocFail = true → s.life = .uninit) ∧
    (s.life ≠ .uninit → LegalGeometry s.w.toNat s.h.toNat)

/-- A recorded transaction is a marker and at least one payload byte, and at most `M` bytes when chunking is on
(rules R60, R61, R79). -/
abbrev Txn.Framed (p : Params) (t : Txn) : Prop :=
  2 ≤ t.bytes.length ∧ (t.bytes.head? = some 0x00#8 ∨ t.bytes.head? = some 0x40#8) ∧
    (p.chunkEnable = true → t.bytes.length ≤ p.maxTxn)

/-- Every recorded transaction is framed. -/
abbrev State.BusInv (s : State) : Prop := ∀ t ∈ s.txns, t.Framed s.params

/-! ### Lines of the assembler (rule R58) -/

/-- The digits of `n` in base `b`, after `k` zeros. -/
def digitText (b k n : Nat) : List Char := List.replicate k '0' ++ Nat.toDigits b n

/-- How a number is spelled: decimal, or hexadecimal with `0x`, its digits in either case. -/
def Spells (text : List Char) (n : Nat) : Prop :=
  ∃ k, text = digitText 10 k n ∨ ∃ digits, text = '0' :: 'x' :: digits ∧ digits.map Char.toLower = digitText 16 k n

/-- How a coordinate is spelled: as a number, or decimal with a sign. -/
def SpellsInt (text : List Char) (v : Int) : Prop :=
  (∃ n : Nat, v = n ∧ (Spells text n ∨ ∃ k, text = '+' :: digitText 10 k n)) ∨
    ∃ n k : Nat, v = -(n : Int) ∧ text = '-' :: digitText 10 k n

/-- Operands as a line writes them, a comma and a blank between two. -/
def operandText (operands : List (List Char)) : List Char := (operands.intersperse [',', ' ']).flatten

/-- A line of an operation and its operands. -/
def lineOf (name : List Char) (operands : List (List Char)) : List Char := name ++ ' ' :: operandText operands

end Sys2Proof.Machine
end

