-- ==== Sys2Proof/Certificates/Slice0/Obligations.lean ====
section
/-! DEFINITION. The statements for the provers, each from the numbered rules of spec/ it names. -/

open Sys2Proof Sys2Proof.Machine

/-! ### Encoding -/

/-- Rules R45 to R54, R57, R58: decoding an encoded operation gives it back, with every operand, and leaves what
follows it. -/
def Obligations.DecodeReadsBackEveryEncodedOperation : Prop :=
  ∀ (i : Instr) (rest : List HostInput), i.wellFormed = true →
    decode (encodeWord i) (i.payload.map .payload ++ rest) = .instr i rest

/-- Rules R55 to R57: a word that decodes is the word of the operation it decodes to, and the payload taken is the
operation's. -/
def Obligations.EveryAcceptedWordEncodesBack : Prop :=
  ∀ (w : OpWord) (following : List HostInput) (i : Instr) (rest : List HostInput),
    decode w following = .instr i rest →
      i.wellFormed = true ∧ encodeWord i = w ∧ following = i.payload.map .payload ++ rest

/-- Rule R57: no word belongs to two rows of the opcode table. -/
def Obligations.OpcodeRowsAreDisjoint : Prop :=
  opcodeTable.Pairwise fun r r' => ∀ w : OpWord, w &&& r.mask = r.pattern → w &&& r'.mask ≠ r'.pattern

/-- Rules R46 to R52: words written out from the formats decode to the operations they stand for. -/
def Obligations.WordsOfTheFormatsDecode : Prop :=
  decode 0x00003C0040008001#64 [] = .instr (.init 128#16 64#16 0x3C#7) [] ∧
  decode 0x0000000000000002#64 [] = .instr .shutdown [] ∧
  decode 0x000000000D000513#64 [] = .instr (.setpx 5#16 13#16 true) [] ∧
  decode 0x0000C80003000204#64 [] = .instr (.setrgb 2#16 3#16 200#8 0#8 0#8) [] ∧
  decode 0x000000000D000505#64 [] = .instr (.getpx 5#16 13#16) [] ∧
  decode 0x0000000000000006#64 [] = .instr .clear [] ∧
  decode 0x0000000000000007#64 [] = .instr .flush [] ∧
  decode 0x000000000000A708#64 [] = .instr (.cmd 0xA7#8) [] ∧
  decode 0x0000000000000209#64 [.payload 0x81#8, .payload 0x7F#8] = .instr (.cmdlist [0x81#8, 0x7F#8]) []

/-- Rule R56: a presented word is refused with `ILLEGAL_OP` exactly when its `op` is 0x0 or 0xA to 0xF. -/
def Obligations.IllegalOpcodesAreRefused : Prop :=
  ∀ (s : State) (w : OpWord) (following : List HostInput),
    s.Configured → s.inputs = .op w :: following →
      ((opField w = 0#4 ∨ 10 ≤ (opField w).toNat) ↔ step s = .refused (.illegalOp w))

/-- Rule R55: a presented word with a legal `op` is refused with `RESERVED_BITS` exactly when a reserved bit of its
format is 1. -/
def Obligations.ReservedBitsAreRefused : Prop :=
  ∀ (s : State) (w : OpWord) (following : List HostInput),
    s.Configured → s.inputs = .op w :: following → 1 ≤ (opField w).toNat → (opField w).toNat ≤ 9 →
      ((∃ k, k < 64 ∧ reservedBit (opField w).toNat k = true ∧ w.getLsbD k = true) ↔
        step s = .refused (.reservedBits w))

/-- Rule R58: what assembles has an encoding, so its word and payload decode to it; a comment, a second blank, a tab for
a blank and a blank after a comma do not count; and each form of a line gives the operation of its mnemonic with the
numbers its operands spell, in the order the rule has them, or does not assemble if one is outside its field's range.
What the rule leaves open of the text is the model's choice, log entry 25. -/
def Obligations.AssembledOperationsAreWellFormed : Prop :=
  (∀ (line : List Char) (i : Instr) (rest : List HostInput), assemble line = some i →
    i.wellFormed = true ∧ decode (encodeWord i) (i.payload.map .payload ++ rest) = .instr i rest) ∧
  (∀ line comment : List Char, ';' ∉ line → assemble (line ++ ';' :: comment) = assemble line) ∧
  (∀ before after : List Char,
    assemble (before ++ ' ' :: ' ' :: after) = assemble (before ++ ' ' :: after) ∧
    assemble (before ++ '\t' :: after) = assemble (before ++ ' ' :: after) ∧
    assemble (before ++ ',' :: ' ' :: after) = assemble (before ++ ',' :: after)) ∧
  (∀ (width height addr : List Char) (w h a : Nat), Spells width w → Spells height h → Spells addr a →
    assemble (lineOf ['I', 'N', 'I', 'T'] [width, height, addr]) =
      if w ≤ 65535 ∧ h ≤ 65535 ∧ a ≤ 0x7F
      then some (.init (BitVec.ofNat 16 w) (BitVec.ofNat 16 h) (BitVec.ofNat 7 a)) else none) ∧
  assemble ['S', 'H', 'U', 'T', 'D', 'O', 'W', 'N'] = some .shutdown ∧
  (∀ (tx ty ton : List Char) (x y : Int) (on : Nat), SpellsInt tx x → SpellsInt ty y → Spells ton on →
    assemble (lineOf ['S', 'E', 'T', 'P', 'X'] [tx, ty, ton]) =
      if (-32768 ≤ x ∧ x ≤ 32767) ∧ (-32768 ≤ y ∧ y ≤ 32767) ∧ on ≤ 1
      then some (.setpx (BitVec.ofInt 16 x) (BitVec.ofInt 16 y) (decide (on = 1))) else none) ∧
  (∀ (tx ty tr tg tb : List Char) (x y : Int) (r g b : Nat),
    SpellsInt tx x → SpellsInt ty y → Spells tr r → Spells tg g → Spells tb b →
    assemble (lineOf ['S', 'E', 'T', 'R', 'G', 'B'] [tx, ty, tr, tg, tb]) =
      if (-32768 ≤ x ∧ x ≤ 32767) ∧ (-32768 ≤ y ∧ y ≤ 32767) ∧ r ≤ 255 ∧ g ≤ 255 ∧ b ≤ 255
      then some (.setrgb (BitVec.ofInt 16 x) (BitVec.ofInt 16 y) (BitVec.ofNat 8 r) (BitVec.ofNat 8 g)
        (BitVec.ofNat 8 b))
      else none) ∧
  (∀ (tx ty : List Char) (x y : Int), SpellsInt tx x → SpellsInt ty y →
    assemble (lineOf ['G', 'E', 'T', 'P', 'X'] [tx, ty]) =
      if (-32768 ≤ x ∧ x ≤ 32767) ∧ (-32768 ≤ y ∧ y ≤ 32767)
      then some (.getpx (BitVec.ofInt 16 x) (BitVec.ofInt 16 y)) else none) ∧
  assemble ['C', 'L', 'E', 'A', 'R'] = some .clear ∧
  assemble ['F', 'L', 'U', 'S', 'H'] = some .flush ∧
  (∀ (tc : List Char) (c : Nat), Spells tc c →
    assemble (lineOf ['C', 'M', 'D'] [tc]) = if c ≤ 255 then some (.cmd (BitVec.ofNat 8 c)) else none) ∧
  (∀ (texts : List (List Char)) (values : List Nat), List.Forall₂ Spells texts values →
    assemble (['C', 'M', 'D', 'L', 'I', 'S', 'T', ' ', '['] ++ operandText texts ++ [']']) =
      if (∀ b ∈ values, b ≤ 255) ∧ values.length ≤ 65535
      then some (.cmdlist (values.map (BitVec.ofNat 8))) else none)

/-- Rule R59: each pseudo-operation expands to one operation, in the assembler's table and as a line of text spells it;
DISPON sends display-on and DISPOFF display-off, neither changes `LIFE`, and DISPOFF differs from SHUTDOWN. -/
def Obligations.PseudoOperationsExpand : Prop :=
  (∀ x y, assembleOp .setpx [x, y] = assembleOp .setpx [x, y, ['1']]) ∧
  (∀ x y, assembleOp .clrpx [x, y] = assembleOp .setpx [x, y, ['0']]) ∧
  assembleOp .dispon [] = some (.cmd 0xAF#8) ∧ assembleOp .dispoff [] = some (.cmd 0xAE#8) ∧
  (∀ (tx ty : List Char) (x y : Int), SpellsInt tx x → SpellsInt ty y →
    assemble (lineOf ['S', 'E', 'T', 'P', 'X'] [tx, ty]) = assemble (lineOf ['S', 'E', 'T', 'P', 'X'] [tx, ty, ['1']]) ∧
    assemble (lineOf ['C', 'L', 'R', 'P', 'X'] [tx, ty]) =
      assemble (lineOf ['S', 'E', 'T', 'P', 'X'] [tx, ty, ['0']])) ∧
  assemble ['D', 'I', 'S', 'P', 'O', 'N'] = some (.cmd 0xAF#8) ∧
  assemble ['D', 'I', 'S', 'P', 'O', 'F', 'F'] = some (.cmd 0xAE#8) ∧
  (∀ (s : State) (c : Byte), c = 0xAF#8 ∨ c = 0xAE#8 → s.Configured → s.Allocated → s.AnswersFirst 1 →
    ∃ t, exec (.cmd c) s = .next t ∧ t.txns = s.txns ++ [⟨s.addr, [0x00#8, c], s.reply 0⟩] ∧ t.life = s.life) ∧
  (∀ s t : State, exec (.cmd 0xAF#8) s = .next t → t.life = s.life) ∧
  (∀ s t : State, exec (.cmd 0xAE#8) s = .next t → t.life = s.life) ∧
  ∀ s t u : State, s.allocFail = false → s.life = .active → exec (.cmd 0xAE#8) s = .next t →
    exec .shutdown s = .next u → u.life ≠ t.life ∧ u.txns = t.txns

/-! ### The step -/

/-- Rules R7, R27, R53: a step runs the operation the host presents, with its word and payload taken from the port. -/
def Obligations.StepRunsTheDecodedOperation : Prop :=
  ∀ (s : State) (w : OpWord) (following : List HostInput) (i : Instr) (rest : List HostInput),
    s.inputs = .op w :: following → decode w following = .instr i rest →
      step s = exec i (s.setInputs rest)

/-- Rule R103, items 1 to 4: the configuration is checked before the word is decoded. That a word whose payload has not
fully arrived is a fault is the model's choice, log entry 7, and that it is so before a reset or another word, log
entry 26. -/
def Obligations.StepChecksConfigurationBeforeDecoding : Prop :=
  ∀ (s : State) (w : OpWord) (following : List HostInput), s.inputs = .op w :: following →
    (¬s.Configured → step s = .refused (.badConfig w)) ∧
    (s.Configured → decode w following = .illegalOp → step s = .refused (.illegalOp w)) ∧
    (s.Configured → decode w following = .reservedBits → step s = .refused (.reservedBits w)) ∧
    (s.Configured → decode w following = .awaitingPayload → step s = .fault .awaitingPayload)

/-- Rules R53, R100 item 1: a CMDLIST word with fewer payload bytes than its length field is stuck. That it is so where
a reset or another word follows the bytes is the model's choice, log entry 26; that stuck is a fault is log entry 7. -/
def Obligations.UnfinishedPayloadIsStuck : Prop :=
  ∀ (s : State) (n : Field16) (bytes : List Byte) (tail : List HostInput),
    s.Configured → bytes.length < n.toNat → (∀ b, tail.head? ≠ some (.payload b)) →
    s.inputs = .op (n.setWidth 64 <<< 8 ||| 9#64) :: (bytes.map .payload ++ tail) →
      step s = .fault .awaitingPayload

/-- With nothing presented FBCE waits (rule R115); that a step then leaves the state as it is, is the model's choice,
log entry 8. -/
def Obligations.StepWaitsForTheHost : Prop :=
  ∀ s : State, s.Ended → step s = .next s

/-- Rule R115: what reset leaves, whatever the state before, with the parameters as they were. That the environment's
answers stay, that reset is one of the host's inputs and that FBCE waits with an unchanged state are the model's choice,
log entry 8. -/
def Obligations.ResetRestoresTheResetValues : Prop :=
  ∀ (s : State) (rest : List HostInput), s.inputs = .reset :: rest →
    ∃ t, step s = .next t ∧ t.life = .uninit ∧ t.allocFail = false ∧ t.fb = [] ∧ t.fbSize = 0 ∧ t.seg = none ∧
      t.txns = [] ∧ t.params = s.params ∧ t.inputs = rest ∧ t.allocAnswers = s.allocAnswers ∧
      t.busAnswers = s.busAnswers ∧ t.draws = s.draws ∧ (rest = [] → step t = .next t)

/-- Rule R31: the values the spec gives for the state after reset, and rule R8's values for the two parameters that
are not OPEN. -/
def Obligations.StateResetHoldsTheResetValues : Prop :=
  State.reset.life = .uninit ∧ State.reset.life.code = 0#2 ∧ State.reset.allocFail = false ∧
  State.reset.fbBytes = [] ∧ State.reset.seg = none ∧ State.reset.txns = [] ∧
  State.reset.params.chunkEnable = true ∧ State.reset.params.fbBytesMax = 8192

/-! ### The Frame Store -/

/-- Rules R33, R66: SETPX in range ends with its pixel as `on` says, every other pixel as before, and nothing else
changed but the response. -/
def Obligations.SetpxWritesExactlyItsPixel : Prop :=
  ∀ (s : State) (x y : Field16) (on : Bool), s.Configured → s.Inv → s.Allocated → s.Holds x.toInt y.toInt →
    ∃ t, exec (.setpx x y on) s = .next t ∧
      t.pixel x.toInt.toNat y.toInt.toNat = on ∧
      (∀ x' y' : Nat, x' < s.w.toNat → y' < s.h.toNat → ¬((x' : Int) = x.toInt ∧ (y' : Int) = y.toInt) →
        t.pixel x' y' = s.pixel x' y') ∧
      t = { s with fb := t.fb, results := s.results ++ [false] }

/-- Rule R66: the byte SETPX writes, and that every other byte of the frame store reads as before. -/
def Obligations.SetpxWritesItsByte : Prop :=
  ∀ (s : State) (x y : Field16) (on : Bool), s.Configured → s.Inv → s.Allocated → s.Holds x.toInt y.toInt →
    ∃ m : Memory, exec (.setpx x y on) s = .next ((s.setFb m).respond false) ∧
      m.read (x.toInt.toNat + y.toInt.toNat / 8 * s.w.toNat) =
        (if on = true
          then s.fb.read (x.toInt.toNat + y.toInt.toNat / 8 * s.w.toNat) ||| 1#8 <<< (y.toInt.toNat % 8)
          else s.fb.read (x.toInt.toNat + y.toInt.toNat / 8 * s.w.toNat) &&& ~~~(1#8 <<< (y.toInt.toNat % 8))) ∧
      ∀ i, i ≠ x.toInt.toNat + y.toInt.toNat / 8 * s.w.toNat → m.read i = s.fb.read i

/-- Rule R72: a pixel operation with a coordinate out of range leaves `FB` unchanged, for any content; GETPX never
changes it. -/
def Obligations.ClippedPixelOperationsChangeNothing : Prop :=
  (∀ (s : State) (x y : Field16) (on : Bool), s.Configured → ¬s.Holds x.toInt y.toInt →
    exec (.setpx x y on) s = .next (s.respond false)) ∧
  (∀ (s : State) (x y : Field16) (r g b : Byte), s.Configured → ¬s.Holds x.toInt y.toInt →
    exec (.setrgb x y r g b) s = .next (s.respond false)) ∧
  (∀ (s t : State) (x y : Field16), exec (.getpx x y) s = .next t → t.fb = s.fb)

/-- Rule R68: SETRGB in range sets its pixel to `MONO(r, g, b)` under the state's `MONO_RULE`, exactly as SETPX would,
and leaves every other pixel as before. -/
def Obligations.SetrgbActsAsSetpxOfMono : Prop :=
  ∀ (s : State) (x y : Field16) (r g b : Byte), s.Configured → s.Inv → s.Allocated → s.Holds x.toInt y.toInt →
    exec (.setrgb x y r g b) s = exec (.setpx x y (mono s.params.monoRule r g b)) s ∧
    ∃ t, exec (.setrgb x y r g b) s = .next t ∧
      t.pixel x.toInt.toNat y.toInt.toNat = mono s.params.monoRule r g b ∧
      (∀ x' y' : Nat, x' < s.w.toNat → y' < s.h.toNat → ¬((x' : Int) = x.toInt ∧ (y' : Int) = y.toInt) →
        t.pixel x' y' = s.pixel x' y') ∧
      (∀ i, i ≠ x.toInt.toNat + y.toInt.toNat / 8 * s.w.toNat → t.fb.read i = s.fb.read i) ∧
      t = { s with fb := t.fb, results := s.results ++ [false] }

/-- Rule R67: the three readings of the colour reduction. -/
def Obligations.MonoFollowsItsRule : Prop :=
  ∀ r g b : Byte,
    (mono .sumGt r g b = true ↔ 127 < r.toNat + g.toNat + b.toNat) ∧
    (mono .orGt r g b = true ↔ 127 < (r ||| g ||| b).toNat) ∧
    (mono .orGt r g b = true ↔ 128 ≤ r.toNat ∨ 128 ≤ g.toNat ∨ 128 ≤ b.toNat) ∧
    (mono .cPrec r g b = true ↔ r ||| g ||| (if 127 < b.toNat then 1#8 else 0#8) ≠ 0#8) ∧
    (mono .cPrec r g b = true ↔ r ≠ 0#8 ∨ g ≠ 0#8 ∨ 128 ≤ b.toNat)

/-- Rule R69: GETPX in range answers its pixel and changes nothing else. -/
def Obligations.GetpxAnswersItsPixel : Prop :=
  ∀ (s : State) (x y : Field16), s.Configured → s.Inv → s.Allocated → s.Holds x.toInt y.toInt →
    exec (.getpx x y) s = .next (s.respond (decide
      (s.fb.read (x.toInt.toNat + y.toInt.toNat / 8 * s.w.toNat) >>> (y.toInt.toNat % 8) &&& 1#8 = 1#8)))

/-- Rules R69, R99: GETPX out of range, before INIT or after an allocation failure answers 0 and changes nothing. -/
def Obligations.GetpxAnswersZeroElsewhere : Prop :=
  ∀ (s : State) (x y : Field16), s.Configured → ¬(s.Allocated ∧ s.Holds x.toInt y.toInt) →
    exec (.getpx x y) s = .next (s.respond false)

/-- Rule R73: after CLEAR every in-range pixel is off, whatever the state before, the frame store allocated or not;
CLEAR changes nothing else but the response, and no byte from `FB_SIZE` on. -/
def Obligations.ClearTurnsEveryPixelOff : Prop :=
  ∀ s : State, s.Configured → s.Inv →
    ∃ t, exec .clear s = .next t ∧
      (∀ x y : Nat, x < s.w.toNat → y < s.h.toNat → t.pixel x y = false) ∧
      (∀ i, i < s.fbSize → t.fb.read i = 0x00#8) ∧
      (∀ i, s.fbSize ≤ i → t.fb.read i = s.fb.read i) ∧
      t = { s with fb := t.fb, results := s.results ++ [false] }

/-- Rule R36: pixels and (byte, bit) pairs correspond one to one, with the inverse the rule gives; pixels of one column
whose rows differ by `8d` share the bit and lie `d * W` bytes apart. -/
def Obligations.LayoutIsABijection : Prop :=
  ∀ w pages : Nat, 0 < w →
    (∀ x y, x < w → y < 8 * pages →
      pixelIndex w x y < w * pages ∧ pixelBit y < 8 ∧
      pixelIndex w x y % w = x ∧ 8 * (pixelIndex w x y / w) + pixelBit y = y) ∧
    (∀ i k, i < w * pages → k < 8 →
      i % w < w ∧ 8 * (i / w) + k < 8 * pages ∧
      pixelIndex w (i % w) (8 * (i / w) + k) = i ∧ pixelBit (8 * (i / w) + k) = k) ∧
    (∀ x y d, pixelBit (y + 8 * d) = pixelBit y ∧ pixelIndex w x (y + 8 * d) = pixelIndex w x y + d * w)

/-- Rule R71: setting and then clearing a pixel restores all of `FB` when the pixel was off; when it was on, the pair
leaves it off and every other bit of its byte as it was. -/
def Obligations.SetThenClearUndoes : Prop :=
  ∀ (s : State) (x y : Field16), s.Configured → s.Inv → s.Allocated → s.Holds x.toInt y.toInt →
    ∃ t u, exec (.setpx x y true) s = .next t ∧ exec (.setpx x y false) t = .next u ∧
      (s.pixel x.toInt.toNat y.toInt.toNat = false → u.fb = s.fb) ∧
      (s.pixel x.toInt.toNat y.toInt.toNat = true → u.pixel x.toInt.toNat y.toInt.toNat = false) ∧
      ∀ k, k < 8 → k ≠ y.toInt.toNat % 8 →
        (u.fb.read (pixelIndex s.w.toNat x.toInt.toNat y.toInt.toNat)).getLsbD k =
          (s.fb.read (pixelIndex s.w.toNat x.toInt.toNat y.toInt.toNat)).getLsbD k

/-- Rule R74: the Frame Store's operations complete without a transaction, whatever the state. -/
def Obligations.FrameStoreOperationsEmitNothing : Prop :=
  ∀ (s : State) (x y : Field16) (on : Bool) (r g b : Byte), s.Configured → s.Inv →
    ∀ i ∈ [Instr.setpx x y on, .setrgb x y r g b, .getpx x y, .clear],
      ∃ t, exec i s = .next t ∧ t.txns = s.txns ∧ t.busAnswers = s.busAnswers ∧ t.draws = s.draws

/-! ### The gate -/

/-- Rule R89: every operation except INIT is a no-op while `ALLOC_FAIL = 1` or `LIFE = UNINIT`; a CMDLIST that is a
no-op still takes its payload from the port. -/
def Obligations.GateMakesOperationsNoops : Prop :=
  ∀ (s : State), s.Configured → s.allocFail = true ∨ s.life = .uninit →
    (∀ i : Instr, (∀ width height addr, i ≠ .init width height addr) → exec i s = .next (s.respond false)) ∧
    (∀ (payload : List Byte) (rest : List HostInput), payload.length ≤ 65535 →
      s.inputs = encode (.cmdlist payload) ++ rest → step s = .next ((s.setInputs rest).respond false))

/-- Rules R18, R88, R103: after an allocation failure an INIT with a legal geometry is a no-op with result 0. -/
def Obligations.InitIsNoopAfterAllocationFailure : Prop :=
  ∀ (s : State) (width height : Field16) (addr : BusAddr), s.Configured → s.allocFail = true →
    LegalGeometry width.toNat height.toNat → exec (.init width height addr) s = .next (s.respond false)

/-! ### The Command Protocol Encoder -/

/-- Rule R82: CMD sends one transaction `[0x00, c]` to `ADDR` and changes nothing else but the response, whatever the
transport answers; `SEG` is idle afterwards (rule R26). -/
def Obligations.CmdSendsOneTransaction : Prop :=
  ∀ (s : State) (c : Byte), s.Configured → s.Allocated → s.AnswersFirst 1 →
    exec (.cmd c) s = .next
      { s with
        seg := none
        txns := s.txns ++ [⟨s.addr, [0x00#8, c], s.reply 0⟩]
        results := s.results ++ [false]
        busAnswers := s.busAnswers.drop 1
        draws := s.draws + (1 - s.busAnswers.length) }

/-- Rule R82: for every legal configuration CMD `c` does what CMDLIST `[c]` does, and both do what the rule's own
`Transact(ADDR, [0x00, c])` does, `SEG` idle afterwards (rule R26). -/
def Obligations.CmdMatchesOneByteCmdlist : Prop :=
  ∀ (s : State) (c : Byte), s.Configured →
    exec (.cmd c) s = exec (.cmdlist [c]) s ∧
    (s.Allocated → exec (.cmd c) s = ((transact [0x00#8, c] s).mapState (·.setSeg none)).finish false)

/-- Rules R77, R78, R80, R83: CMDLIST sends the chunks of its payload under the command marker, as far as the bus
lets it, and changes nothing else but the response. `SEG` is idle afterwards (rule R26), after an `abort` too (log
entry 13). -/
def Obligations.CmdlistSendsItsChunks : Prop :=
  ∀ (s : State) (payload : List Byte), s.Configured → s.Allocated → payload.length ≤ 65535 →
    s.AnswersFirst (chunkPlan s.params 0x00#8 payload).length →
      exec (.cmdlist payload) s =
        .next (((s.afterPlan (chunkPlan s.params 0x00#8 payload)).setSeg none).respond false)

/-- Rules R37, R77, R84, R85: FLUSH sends the window under the command marker, then every byte of `FB` in ascending
order under the data marker, as far as the bus lets it, and changes nothing else but the response. `SEG` is idle
afterwards (rule R26), after an `abort` too (log entry 13). -/
def Obligations.FlushSendsWindowThenFrame : Prop :=
  ∀ s : State, s.Configured → s.Allocated →
    s.AnswersFirst (flushPlan s.params s.w.toNat s.h.toNat
      ((List.range (s.w.toNat * s.h.toNat / 8)).map s.fb.read)).length →
      exec .flush s =
        .next (((s.afterPlan (flushPlan s.params s.w.toNat s.h.toNat
          ((List.range (s.w.toNat * s.h.toNat / 8)).map s.fb.read))).setSeg none).respond false)

/-- Rule R84: in a legal geometry each number of the addressing window fits its byte, and the window is FLUSH's. -/
def Obligations.WindowNumbersFitTheirBytes : Prop :=
  ∀ s : State, LegalGeometry s.w.toNat s.h.toNat →
    s.window = windowOf s.w.toNat s.h.toNat ∧ s.window.length = 6 ∧
    s.window.map BitVec.toNat = [0x21, 0, s.w.toNat - 1, 0x22, 0, s.h.toNat / 8 - 1] ∧
    s.w.toNat - 1 ≤ 255 ∧ s.h.toNat / 8 - 1 ≤ 31

/-- Rule R78: a stream that runs to its end emits `ceil(L / P)` transactions; number `j` carries the marker and
`B[j*P : min((j+1)*P, L)]`; every one but the last carries `P` bytes, the last `L - (K-1)*P`, which is 1 to `P`. Every
stream of FBCE is at most 65535 bytes long (rule R26, log entry 11). -/
def Obligations.StreamCutsIntoChunks : Prop :=
  ∀ (s : State) (marker : Byte) (bytes : List Byte) (P K : Nat), s.Configured →
    P = (if s.params.chunkEnable = true then s.params.maxTxn - 1 else max bytes.length 1) →
    bytes.length ≤ 65535 → K = (bytes.length + P - 1) / P → s.AnswersFirst K → s.RunsToEnd K →
      ∃ t new, stream marker bytes s = .going t ∧ t.txns = s.txns ++ new ∧ new.length = K ∧
        ∀ (j : Nat) (e : Txn), new[j]? = some e →
          e.bytes = marker :: bytes.extract (j * P) (min ((j + 1) * P) bytes.length) ∧
          (j + 1 < K → e.bytes.length = P + 1) ∧
          (j + 1 = K → e.bytes.length = bytes.length - (K - 1) * P + 1 ∧
            1 ≤ bytes.length - (K - 1) * P ∧ bytes.length - (K - 1) * P ≤ P)

/-- Rule R79: the transactions of a stream that runs to its end start with the marker, hold 2 to `P + 1` bytes (`M` when
chunking), and their payloads in order are the stream; an aborted stream emits a prefix of the transactions of the whole
stream, so the same holds of each, and its payloads are a prefix of the stream that ends at a chunk boundary. Every
stream of FBCE is at most 65535 bytes long (rule R26, log entry 11). -/
def Obligations.StreamRebuildsItsBytes : Prop :=
  ∀ (s t : State) (marker : Byte) (bytes : List Byte) (P : Nat), s.Configured →
    P = (if s.params.chunkEnable = true then s.params.maxTxn - 1 else max bytes.length 1) →
    bytes.length ≤ 65535 →
    stream marker bytes s = .going t ∨ stream marker bytes s = .aborted t →
      ∃ new, t.txns = s.txns ++ new ∧
        (∀ e ∈ new, e.bytes.length ≤ P + 1 ∧ 2 ≤ e.bytes.length ∧ e.bytes.head? = some marker ∧
          (s.params.chunkEnable = true → e.bytes.length ≤ s.params.maxTxn)) ∧
        (stream marker bytes s = .going t → new.flatMap (fun e => e.bytes.tail) = bytes) ∧
        (stream marker bytes s = .aborted t →
          new.map Txn.bytes <+: chunkPlan s.params marker bytes ∧
          new.flatMap (fun e => e.bytes.tail) = bytes.take (new.length * P))

/-- Rule R86: a FLUSH that runs to its end emits `ceil(6 / P) + ceil(FB_SIZE / P)` transactions when chunking and 2
when not; 35 for a 128 by 64 frame with `M = 32`. -/
def Obligations.FlushTransactionCount : Prop :=
  ∀ (s : State) (n : Nat), s.Configured → s.Inv → s.Allocated →
    n = (if s.params.chunkEnable = true
      then (6 + (s.params.maxTxn - 1) - 1) / (s.params.maxTxn - 1) +
        (s.w.toNat * s.h.toNat / 8 + (s.params.maxTxn - 1) - 1) / (s.params.maxTxn - 1)
      else 2) →
    s.AnswersFirst n → s.RunsToEnd n →
      (∃ t, exec .flush s = .next t ∧ t.txns.length = s.txns.length + n) ∧
      (s.w = 128#9 → s.h = 64#9 → s.params.maxTxn = 32 → s.params.chunkEnable = true → n = 35)

/-- Rule R81: without chunking a nonempty stream is one transaction of `L + 1` bytes, whatever `M` is and whatever the
transport answers, and an empty one none. Rule R80: it goes on, or is aborted where the answer is false under ABORT_OP.
`SEG` is idle afterwards (rule R26); that it is so after an `abort` too is log entry 13. Every stream of FBCE is at most
65535 bytes long (rule R26, log entry 11). -/
def Obligations.UnchunkedStreamIsOneTransaction : Prop :=
  ∀ (s : State) (marker : Byte), s.params.chunkEnable = false →
    stream marker [] s = .going (s.setSeg none) ∧
    ∀ bytes : List Byte, bytes ≠ [] → bytes.length ≤ 65535 → s.AnswersFirst 1 →
      ∃ t, t = (s.afterPlan [marker :: bytes]).setSeg none ∧
        (s.RunsToEnd 1 → stream marker bytes s = .going t) ∧
        (¬s.RunsToEnd 1 → stream marker bytes s = .aborted t) ∧
        t.txns = s.txns ++ [⟨s.addr, marker :: bytes, s.reply 0⟩] ∧
        (marker :: bytes).length = bytes.length + 1

/-- Rule R80: under CONTINUE every transaction of a CMDLIST or FLUSH is emitted; under ABORT_OP the first failed one is
the last, and nothing is undone. -/
def Obligations.BusFailurePolicy : Prop :=
  ∀ (s : State) (i : Instr) (plan : List (List Byte)), s.Configured → s.Allocated → s.AnswersFirst plan.length →
    (∃ payload, i = .cmdlist payload ∧ payload.length ≤ 65535 ∧ plan = chunkPlan s.params 0x00#8 payload) ∨
      (i = .flush ∧ plan = flushPlan s.params s.w.toNat s.h.toNat s.fbBytes) →
    ∃ t new, exec i s = .next t ∧ t.txns = s.txns ++ new ∧ t.fb = s.fb ∧ t.life = s.life ∧
      (s.params.onBusFail = .keepGoing → new.map Txn.bytes = plan) ∧
      (s.params.onBusFail = .abortOp → (∀ j, j < plan.length → s.reply j = true) → new.map Txn.bytes = plan) ∧
      (∀ k, s.params.onBusFail = .abortOp → k < plan.length → s.reply k = false → (∀ j, j < k → s.reply j = true) →
        new.map Txn.bytes = plan.take (k + 1) ∧ new.map Txn.ok = List.replicate k true ++ [false])

/-- Rules R91, R100 item 2: an operation is stuck when the transport never answers one of the transactions it plans and
reaches, the first or a later one, INIT's included. That stuck is a fault is the model's choice, log entry 7. -/
def Obligations.SilentTransportIsStuck : Prop :=
  (∀ (s : State) (i : Instr) (k : Nat), s.Configured → s.Performs i → k < (s.plan i).length →
    s.busAnswers[k]? = some .never → s.AnswersFirst k → s.RunsToEnd k → exec i s = .fault .transportSilent) ∧
  ∀ (s : State) (rest : List BusAnswer), s.Configured → s.busAnswers = .never :: rest →
    (∀ width height addr, s.Performs (.init width height addr) →
      exec (.init width height addr) s = .fault .transportSilent) ∧
    (s.Allocated →
      (∀ c, exec (.cmd c) s = .fault .transportSilent) ∧
      (∀ payload, payload ≠ [] → payload.length ≤ 65535 → exec (.cmdlist payload) s = .fault .transportSilent) ∧
      exec .flush s = .fault .transportSilent ∧ exec .shutdown s = .fault .transportSilent)

/-! ### The lifecycle -/

/-- Rule R95: SHUTDOWN sets `LIFE` to `OFF`, sends display-off, and keeps everything else, whatever the transport
answers and whether `LIFE` was `ACTIVE` or `OFF`; `SEG` is idle afterwards (rule R26). -/
def Obligations.ShutdownTurnsTheDisplayOff : Prop :=
  ∀ s : State, s.Configured → s.Allocated → s.AnswersFirst 1 →
    exec .shutdown s = .next
      { s with
        life := .off
        seg := none
        txns := s.txns ++ [⟨s.addr, [0x00#8, 0xAE#8], s.reply 0⟩]
        results := s.results ++ [false]
        busAnswers := s.busAnswers.drop 1
        draws := s.draws + (1 - s.busAnswers.length) }

/-- Rules R30, R91: an INIT whose allocation succeeds latches its operands, zero-fills the frame store, becomes active,
sends the init table's groups, display-on and a full FLUSH as far as the bus lets it, and answers 1. -/
def Obligations.InitBringsTheDisplayUp : Prop :=
  ∀ (s : State) (width height : Field16) (addr : BusAddr), s.Configured → s.Inv →
    s.allocFail = false → s.life = .uninit → LegalGeometry width.toNat height.toNat →
    s.allocReply = true → width.toNat * height.toNat / 8 ≤ s.params.fbBytesMax →
    (s.afterAlloc width.toNat height.toNat addr).AnswersFirst (initPlan s.params width.toNat height.toNat).length →
      exec (.init width height addr) s =
        .next (((s.afterAlloc width.toNat height.toNat addr).afterPlan
          (initPlan s.params width.toNat height.toNat)).respond true)

/-- Rule R101: an INIT whose allocation fails, by the allocator's answer or by `FB_BYTES_MAX`, sets `ALLOC_FAIL`,
leaves `LIFE`, emits nothing and answers 0; every operation after it is a no-op. -/
def Obligations.AllocationFailureMakesNoops : Prop :=
  ∀ (s : State) (width height : Field16) (addr : BusAddr), s.Configured → s.allocFail = false → s.life = .uninit →
    LegalGeometry width.toNat height.toNat →
    s.allocReply = false ∨ s.params.fbBytesMax < width.toNat * height.toNat / 8 →
      ∃ t, exec (.init width height addr) s = .next t ∧
        t = (s.afterAllocDraw.setAllocFail true).respond false ∧ t.life = .uninit ∧ t.txns = s.txns ∧
        ∀ i : Instr, (∀ w h a, i = .init w h a → LegalGeometry w.toNat h.toNat) → exec i t = .next (t.respond false)

/-- Rule R90: INIT with an illegal geometry is refused with `BAD_GEOMETRY`, and only then. -/
def Obligations.IllegalGeometryIsRefused : Prop :=
  ∀ (s : State) (width height : Field16) (addr : BusAddr), s.Configured →
    (¬(1 ≤ width.toNat ∧ width.toNat ≤ 256 ∧ 8 ≤ height.toNat ∧ height.toNat ≤ 256 ∧ height.toNat % 8 = 0) ↔
      exec (.init width height addr) s = .refused (.badGeometry (encodeWord (.init width height addr))))

/-- Rules R88, R91: INIT with a legal geometry while `LIFE` is `ACTIVE` or `OFF` is refused with `REINIT`. -/
def Obligations.ReinitIsRefused : Prop :=
  ∀ (s : State) (width height : Field16) (addr : BusAddr), s.Configured → s.Allocated →
    LegalGeometry width.toNat height.toNat →
      exec (.init width height addr) s = .refused (.reinit (encodeWord (.init width height addr)))

/-- Rules R76, R98, R118: with chunking on and `M < 2` every operation is refused with `BAD_CONFIG`, and so is every
word the host presents. -/
def Obligations.BadConfigRefusesEveryOperation : Prop :=
  ∀ s : State, s.params.chunkEnable = true → s.params.maxTxn < 2 →
    (∀ i : Instr, exec i s = .refused (.badConfig (encodeWord i))) ∧
    (∀ (w : OpWord) (following : List HostInput), s.inputs = .op w :: following →
      step s = .refused (.badConfig w))

/-- Rule R88: how an operation can change `LIFE` and `ALLOC_FAIL`. -/
def Obligations.LifecycleFollowsItsTable : Prop :=
  ∀ (i : Instr) (s t : State), exec i s = .next t →
    (t.life = s.life ∨
      (s.life = .uninit ∧ s.allocFail = false ∧ t.life = .active ∧ ∃ w h a, i = .init w h a) ∨
      (s.life ≠ .uninit ∧ s.allocFail = false ∧ t.life = .off ∧ i = .shutdown)) ∧
    (t.allocFail = s.allocFail ∨
      (s.allocFail = false ∧ t.allocFail = true ∧ s.life = .uninit ∧ t.life = .uninit ∧ ∃ w h a, i = .init w h a))

/-- Rules R17, R112: no step but a reset leaves `OFF`. -/
def Obligations.OnlyResetLeavesOff : Prop :=
  ∀ s t : State, s.life = .off → (∀ rest, s.inputs ≠ .reset :: rest) → step s = .next t → t.life = .off

/-- Rule R18: no step but a reset clears `ALLOC_FAIL`, and while it is set no step but a reset changes anything but the
inputs taken and the response given. -/
def Obligations.OnlyResetClearsAllocFail : Prop :=
  ∀ s t : State, s.allocFail = true → (∀ rest, s.inputs ≠ .reset :: rest) → step s = .next t →
    t.allocFail = true ∧ t = { s with inputs := t.inputs, results := t.results }

/-- Rule R8: no step changes a parameter. -/
def Obligations.ParametersNeverChange : Prop :=
  ∀ s t : State, step s = .next t → t.params = s.params

/-- Rules R8, R92: the model's plain tables lose nothing: every function from legal geometries to groups is the table of
some `InitTable`. That tables are held so is the model's choice, log entry 3. -/
def Obligations.InitTablesHoldEveryFunction : Prop :=
  ∀ f : Nat → Nat → List CommandGroup, ∃ table : InitTable,
    ∀ w h, LegalGeometry w h → tableGroups table w h = f w h

/-- Rule R94, for the table of rule R93: an INIT with it sends `[0x00, 0xA8, H - 1]`, and `H - 1` is 7 to 255. -/
def Obligations.StandardTableSetsMultiplexRatio : Prop :=
  ∀ (p : Params) (w h : Nat), p.initTable = .standard → LegalGeometry w h →
    (p.chunkEnable = true → 3 ≤ p.maxTxn) →
      [0x00#8, 0xA8#8, BitVec.ofNat 8 (h - 1)] ∈ initPlan p w h ∧
      (BitVec.ofNat 8 (h - 1)).toNat = h - 1 ∧ 7 ≤ h - 1 ∧ h - 1 ≤ 255

/-- Rule R96: an INIT that succeeds and runs to its end emits `ceil(len(G) / P)` transactions for each group, one for
display-on, and FLUSH's; 51 with the table of rule R93 for 128 by 64 and `M = 32`. -/
def Obligations.InitTransactionCount : Prop :=
  ∀ (s : State) (width height : Field16) (addr : BusAddr) (n : Nat), s.Configured → s.Inv →
    s.allocFail = false → s.life = .uninit → LegalGeometry width.toNat height.toNat →
    s.allocReply = true → width.toNat * height.toNat / 8 ≤ s.params.fbBytesMax →
    n = ((tableGroups s.params.initTable width.toNat height.toNat).map
        fun g => chunkCount s.params g.bytes.length).sum + 1 +
      (chunkCount s.params 6 + chunkCount s.params (width.toNat * height.toNat / 8)) →
    (s.afterAlloc width.toNat height.toNat addr).AnswersFirst n →
    (s.afterAlloc width.toNat height.toNat addr).RunsToEnd n →
      (∃ t, exec (.init width height addr) s = .next t ∧ t.txns.length = s.txns.length + n ∧
        t.results = s.results ++ [true]) ∧
      (s.params.chunkEnable = true → s.params.maxTxn = 32 → s.params.initTable = .standard →
        width = 128#16 → height = 64#16 → n = 51)

/-! ### Invariants and whole-machine rules -/

/-- The state after reset meets both invariants (rules R18, R24, R26, R31). -/
def Obligations.ResetMeetsTheInvariants : Prop :=
  State.reset.Inv ∧ State.reset.BusInv ∧ State.reset.Configured

/-- Rules R18, R21, R22, R24, R26: every step keeps the frame store canonical and inside `FB_SIZE`, `SEG` idle between
operations, the geometry of an allocated frame legal, and `LIFE = UNINIT` after a failed allocation. -/
def Obligations.StepKeepsTheInvariant : Prop :=
  ∀ s t : State, s.Inv → step s = .next t → t.Inv

/-- Rules R60, R61, R76, R79: every step keeps every recorded transaction framed: a marker, at least one payload byte,
and at most `M` bytes when chunking. -/
def Obligations.StepKeepsTransactionsFramed : Prop :=
  ∀ s t : State, s.BusInv → step s = .next t → t.BusInv

/-- Rule R32: from a state that meets the invariant no step names a byte outside the frame store. -/
def Obligations.NoStepLeavesTheFrameStore : Prop :=
  ∀ s : State, s.Inv → step s ≠ .fault .outsideFrameStore

/-- Rules R29, R41: a step that is no reset only adds to the transaction record, and all it adds goes to `ADDR`
(rule R23). -/
def Obligations.TransactionsOnlyGrowAndGoToAddr : Prop :=
  ∀ s t : State, (∀ rest, s.inputs ≠ .reset :: rest) → step s = .next t →
    ∃ new, t.txns = s.txns ++ new ∧ ∀ e ∈ new, e.addr = t.addr

/-- Rule R28: an operation that ends answers once, and with 0 unless it is INIT or GETPX. -/
def Obligations.OperationsAnswerOnce : Prop :=
  ∀ (i : Instr) (s t : State), exec i s = .next t →
    ∃ r, t.results = s.results ++ [r] ∧
      ((∀ w h a, i ≠ .init w h a) → (∀ x y, i ≠ .getpx x y) → r = false)

/-- Rules R16, R42: what CMD, CMDLIST and SHUTDOWN send and answer does not depend on the frame store, which they keep. -/
def Obligations.CommandsIgnoreTheFrameStore : Prop :=
  ∀ (s t : State) (m : Memory) (c : Byte) (payload : List Byte),
    ∀ i ∈ [Instr.cmd c, .cmdlist payload, .shutdown],
      exec i s = .next t → t.fb = s.fb ∧ exec i (s.setFb m) = .next (t.setFb m)

/-- Rule R124: an operation sends at most the transactions the rule bounds it by. -/
def Obligations.OperationsSendBoundedlyMany : Prop :=
  ∀ (i : Instr) (s t : State), s.Inv → i.wellFormed = true → exec i s = .next t →
    t.txns.length ≤ s.txns.length + transactionBound s.params s.w.toNat s.h.toNat i

/-- Rules R97, R98, R124: from a state that meets the invariant, in a legal configuration and with a transport that
answers, a presented operation completes, or is an INIT refused for its geometry or for `LIFE`. -/
def Obligations.PresentedOperationsEnd : Prop :=
  ∀ (s : State) (w : OpWord) (following : List HostInput) (i : Instr) (rest : List HostInput),
    s.Inv → s.Configured → (∀ a ∈ s.busAnswers, a ≠ .never) →
    s.inputs = .op w :: following → decode w following = .instr i rest →
      (∃ t, step s = .next t) ∨
      (∃ width height addr, i = .init width height addr ∧
        ((¬LegalGeometry width.toNat height.toNat ∧ step s = .refused (.badGeometry w)) ∨
          (LegalGeometry width.toNat height.toNat ∧ s.life ≠ .uninit ∧ step s = .refused (.reinit w))))
end

