-- ==== Sys2Proof/Laws/Assembler.lean ====
section
/-! SUPPORT. What the assembler reads from a line: numbers, tokens and operands (rule R58). -/

namespace Sys2Proof.Machine

open Sys2Proof

/-! ### Numbers -/

/-- A character of a word: none that ends a token (rule R58). -/
def plain (c : Char) : Bool := !(c == ';' || c == ' ' || c == '\t' || c == ',' || c == '[' || c == ']')

theorem digit_digitChar : ∀ d, d < 16 → (d < 10 → digit 10 d.digitChar = some d) ∧ digit 16 d.digitChar = some d := by
  decide

theorem digitChar_plain : ∀ d, d < 16 → plain d.digitChar = true ∧ d.digitChar ≠ 'x' ∧ d.digitChar ≠ '-' ∧
    d.digitChar ≠ '+' := by
  decide

/-- The digits of a number are digit characters. -/
theorem mem_toDigits {b : Nat} (hb : 1 < b) (n : Nat) : ∀ c ∈ Nat.toDigits b n, ∃ d, d < b ∧ c = d.digitChar := by
  induction n using Nat.strong_induction_on with
  | _ n ih =>
    intro c hc
    rw [Nat.toDigits_eq_if hb] at hc
    split at hc
    · next h => exact ⟨n, h, by simpa using hc⟩
    · next h =>
      rcases List.mem_append.1 hc with hc | hc
      · exact ih (n / b) (Nat.div_lt_self (by omega) hb) c hc
      · exact ⟨n % b, Nat.mod_lt _ (by omega), by simpa using hc⟩

theorem digitsFrom_append (b r : Nat) (l : List Char) (c : Char) :
    digitsFrom b r (l ++ [c]) = (digitsFrom b r l).bind fun v => (digit b c).map fun d => b * v + d := by
  induction l generalizing r with
  | nil =>
    simp only [List.nil_append, digitsFrom, Option.bind_some]
    cases digit b c <;> rfl
  | cons a l ih =>
    simp only [List.cons_append, digitsFrom]
    cases digit b a with
    | none => rfl
    | some v => exact ih _

/-- The digits of `n` read as `n`. -/
theorem digitsFrom_toDigits {b : Nat} (hb : 1 < b) (hd : ∀ d, d < b → digit b d.digitChar = some d) (n : Nat) :
    digitsFrom b 0 (Nat.toDigits b n) = some n := by
  induction n using Nat.strong_induction_on with
  | _ n ih =>
    rw [Nat.toDigits_eq_if hb]
    split
    · next h => simp [digitsFrom, hd n h]
    · next h =>
      rw [digitsFrom_append, ih (n / b) (Nat.div_lt_self (by omega) hb), Option.bind_some,
        hd _ (Nat.mod_lt _ (by omega)), Option.map_some, Nat.div_add_mod]

/-- The characters of a number's text are digit characters, and there is one. -/
theorem mem_digitText {b : Nat} (hb : 1 < b) (k n : Nat) : ∀ c ∈ digitText b k n, ∃ d, d < b ∧ c = d.digitChar := by
  intro c hc
  rcases List.mem_append.1 hc with hc | hc
  · exact ⟨0, by omega, (List.mem_replicate.1 hc).2⟩
  · exact mem_toDigits hb n c hc

theorem digitText_ne_nil (b k n : Nat) : digitText b k n ≠ [] := by
  simp [digitText, Nat.toDigits_ne_nil]

theorem digitsFrom_zeros (b k : Nat) (hb : 1 < b) (l : List Char) :
    digitsFrom b 0 (List.replicate k '0' ++ l) = digitsFrom b 0 l := by
  have hz : digit b '0' = some 0 := if_pos (by simp; omega)
  induction k with
  | zero => rfl
  | succ k ih => simpa only [List.replicate_succ, List.cons_append, digitsFrom, hz, Nat.mul_zero, Nat.add_zero] using ih

/-- Leading zeros do not count. -/
theorem digitsFrom_decimal (k n : Nat) : digitsFrom 10 0 (digitText 10 k n) = some n := by
  rw [digitText, digitsFrom_zeros 10 k (by omega)]
  exact digitsFrom_toDigits (by omega) (fun d h => (digit_digitChar d (by omega)).1 h) n

theorem digitsFrom_hexadecimal (k n : Nat) : digitsFrom 16 0 (digitText 16 k n) = some n := by
  rw [digitText, digitsFrom_zeros 16 k (by omega)]
  exact digitsFrom_toDigits (by omega) (fun d h => (digit_digitChar d h).2) n

/-- A capital letter, by its number. -/
theorem capital {c : Char} (h : c.isUpper = true) : ∃ k, k < 26 ∧ c = Char.ofNat (65 + k) := by
  have h : 65 ≤ c.toNat ∧ c.toNat ≤ 90 := of_decide_eq_true h
  refine ⟨c.toNat - 65, by omega, ?_⟩
  rw [show 65 + (c.toNat - 65) = c.toNat by omega, Char.ofNat_toNat]

theorem capital_digit : ∀ k, k < 26 → let c := Char.ofNat (65 + k)
    digit 16 c = digit 16 c.toLower ∧ plain c = true := by
  decide

theorem toLower_other {c : Char} (h : ¬c.isUpper = true) : c.toLower = c := by
  rw [Char.toLower]
  split
  · next hc => exact absurd (decide_eq_true hc) h
  · rfl

theorem digit_toLower (c : Char) : digit 16 c = digit 16 c.toLower := by
  by_cases h : c.isUpper = true
  · obtain ⟨k, hk, rfl⟩ := capital h
    exact (capital_digit k hk).1
  · rw [toLower_other h]

theorem plain_of_toLower {c : Char} (hc : plain c.toLower = true) : plain c = true := by
  by_cases h : c.isUpper = true
  · obtain ⟨k, hk, rfl⟩ := capital h
    exact (capital_digit k hk).2
  · rwa [toLower_other h] at hc

/-- The case of hexadecimal digits does not count. -/
theorem digitsFrom_toLower (l : List Char) (r : Nat) : digitsFrom 16 r (l.map Char.toLower) = digitsFrom 16 r l := by
  induction l generalizing r with
  | nil => rfl
  | cons c l ih =>
    rw [List.map_cons, digitsFrom, digitsFrom, ← digit_toLower]
    cases digit 16 c with
    | none => rfl
    | some v => exact ih _

/-- The first digit of a decimal number, and that no `x` or sign stands among its digits. -/
theorem decimal_cons (k n : Nat) :
    ∃ c rest, digitText 10 k n = c :: rest ∧ c ≠ '-' ∧ c ≠ '+' ∧ rest.head? ≠ some 'x' := by
  have hm := mem_digitText (b := 10) (by omega) k n
  cases h : digitText 10 k n with
  | nil => exact absurd h (digitText_ne_nil 10 k n)
  | cons c rest =>
    rw [h] at hm
    obtain ⟨d, hd, hc⟩ := hm c (by simp)
    have hp := digitChar_plain d (by omega)
    refine ⟨c, rest, rfl, hc ▸ hp.2.2.1, hc ▸ hp.2.2.2, ?_⟩
    intro hx
    obtain ⟨e, he, hx⟩ := hm 'x' (List.mem_cons_of_mem _ (List.mem_of_mem_head? hx))
    exact (digitChar_plain e (by omega)).2.1 hx.symm

/-- A spelled number reads as its value. -/
theorem number_of_spells {text : List Char} {n : Nat} (h : Spells text n) : number text = some n := by
  obtain ⟨k, rfl | ⟨digits, rfl, hl⟩⟩ := h
  · obtain ⟨c, rest, he, -, -, hx⟩ := decimal_cons k n
    have hd := digitsFrom_decimal k n
    rw [he] at hd ⊢
    unfold number
    split
    · next e => cases e
    · next e => simp only [List.cons.injEq] at e; rw [e.2] at hx; simp at hx
    · next e => rw [← e]; exact hd
  · have hd := digitsFrom_hexadecimal k n
    rw [← hl, digitsFrom_toLower] at hd
    cases digits with
    | nil => exact absurd hl.symm (digitText_ne_nil 16 k n)
    | cons c rest => exact hd

/-- A spelled coordinate reads as its value. -/
theorem signedNumber_of_spells {text : List Char} {v : Int} (h : SpellsInt text v) : signedNumber text = some v := by
  have signless : ∀ {t : List Char} {n : Nat}, Spells t n → t.head? ≠ some '-' ∧ t.head? ≠ some '+' := by
    rintro t n ⟨k, rfl | ⟨digits, rfl, -⟩⟩
    · obtain ⟨c, rest, he, h1, h2, -⟩ := decimal_cons k n
      rw [he]
      simpa using ⟨h1, h2⟩
    · simp
  rcases h with ⟨n, rfl, h | ⟨k, rfl⟩⟩ | ⟨n, k, rfl, rfl⟩
  · have hs := signless h
    have hn := number_of_spells h
    unfold signedNumber
    split
    · simp at hs
    · simp at hs
    · rw [hn]; rfl
  · obtain ⟨c, rest, he, -⟩ := decimal_cons k n
    have hd := digitsFrom_decimal k n
    rw [he] at hd ⊢
    simp only [signedNumber, hd, Option.map_some]
  · obtain ⟨c, rest, he, -⟩ := decimal_cons k n
    have hd := digitsFrom_decimal k n
    rw [he] at hd ⊢
    simp only [signedNumber, hd, Option.map_some]

/-- An operand of an `n`-bit field assembles exactly when it is inside the field's range, 0 to `m` (rule R58). -/
theorem fieldOperand_of_spells {text : List Char} {v n m : Nat} (h : Spells text v) (hm : 2 ^ n = m + 1) :
    fieldOperand n text = if v ≤ m then some (BitVec.ofNat n v) else none := by
  unfold fieldOperand
  simp only [number_of_spells h, hm, Nat.lt_succ_iff]

/-- A coordinate assembles exactly when it is -32768 to 32767 (rule R58). -/
theorem coordOperand_of_spells {text : List Char} {v : Int} (h : SpellsInt text v) :
    coordOperand text = if -32768 ≤ v ∧ v ≤ 32767 then some (BitVec.ofInt 16 v) else none := by
  unfold coordOperand
  rw [signedNumber_of_spells h]

/-- The bytes of a list assemble exactly when each is 0 to 255 (rule R58). -/
theorem mapM_fieldOperand_of_spells {texts : List (List Char)} {values : List Nat}
    (h : List.Forall₂ Spells texts values) :
    texts.mapM (fieldOperand 8) =
      if ∀ b ∈ values, b ≤ 255 then some (values.map (BitVec.ofNat 8)) else none := by
  induction h with
  | nil => simp
  | @cons a b _ l ha _ ih =>
    rw [List.mapM_cons, fieldOperand_of_spells (m := 255) ha rfl, ih]
    by_cases hb : b ≤ 255
    · by_cases hl : ∀ c ∈ l, c ≤ 255
      · rw [if_pos hb, if_pos hl, if_pos (by simpa [hb] using hl)]; rfl
      · rw [if_pos hb, if_neg hl, if_neg fun hc => hl fun c hm => hc c (List.mem_cons_of_mem _ hm)]; rfl
    · have hn : ¬∀ c ∈ b :: l, c ≤ 255 := fun hc => hb (hc b List.mem_cons_self)
      rw [if_neg hb, if_neg hn]
      rfl

/-! ### Tokens -/

/-- A word: some characters, none of which ends a token. -/
def IsWord (text : List Char) : Prop := text ≠ [] ∧ ∀ c ∈ text, plain c = true

theorem isWord_digitText {b : Nat} (hb : 1 < b) (h16 : b ≤ 16) (k n : Nat) : IsWord (digitText b k n) := by
  refine ⟨digitText_ne_nil b k n, fun c hc => ?_⟩
  obtain ⟨d, hd, rfl⟩ := mem_digitText hb k n c hc
  exact (digitChar_plain d (by omega)).1

theorem IsWord.cons {c : Char} {text : List Char} (hc : plain c = true) (h : IsWord text) : IsWord (c :: text) :=
  ⟨by simp, fun d hd => by
    rcases List.mem_cons.1 hd with rfl | hd
    · exact hc
    · exact h.2 d hd⟩

theorem isWord_of_toLower {text : List Char} (h : IsWord (text.map Char.toLower)) : IsWord text :=
  ⟨fun e => h.1 (by rw [e]; rfl), fun c hc => plain_of_toLower (h.2 _ (List.mem_map_of_mem hc))⟩

theorem isWord_of_spells {text : List Char} {n : Nat} (h : Spells text n) : IsWord text := by
  obtain ⟨k, rfl | ⟨digits, rfl, hl⟩⟩ := h
  · exact isWord_digitText (by omega) (by omega) k n
  · exact .cons (by decide) (.cons (by decide)
      (isWord_of_toLower (hl ▸ isWord_digitText (by omega) (by omega) k n)))

theorem isWord_of_spellsInt {text : List Char} {v : Int} (h : SpellsInt text v) : IsWord text := by
  rcases h with ⟨n, rfl, h | ⟨k, rfl⟩⟩ | ⟨n, k, rfl, rfl⟩
  · exact isWord_of_spells h
  · exact .cons (by decide) (isWord_digitText (by omega) (by omega) k n)
  · exact .cons (by decide) (isWord_digitText (by omega) (by omega) k n)

theorem isWord_of_forall₂ {texts : List (List Char)} {values : List Nat} (h : List.Forall₂ Spells texts values) :
    ∀ t ∈ texts, IsWord t := by
  induction h with
  | nil => simp
  | cons h1 _ ih => simpa using ⟨isWord_of_spells h1, ih⟩

theorem isMark_of_isWord {text : List Char} (h : IsWord text) : isMark text = false := by
  by_contra hm
  rw [Bool.not_eq_false] at hm
  have hc : text = [','] ∨ text = ['['] ∨ text = [']'] := by simpa [isMark, or_assoc] using hm
  rcases hc with rfl | rfl | rfl
  · exact absurd (h.2 ',' (by simp)) (by decide)
  · exact absurd (h.2 '[' (by simp)) (by decide)
  · exact absurd (h.2 ']' (by simp)) (by decide)

/-- The characters of a word go into the token in progress. -/
theorem tokensFrom_word (text : List Char) (h : ∀ c ∈ text, plain c = true) (read rest : List Char) :
    tokensFrom read (text ++ rest) = tokensFrom (text.reverse ++ read) rest := by
  induction text generalizing read with
  | nil => rfl
  | cons c text ih =>
    have hc := h c (by simp)
    simp only [plain, Bool.not_eq_true', Bool.or_eq_false_iff, beq_eq_false_iff_ne, ne_eq] at hc
    rw [List.cons_append, tokensFrom, if_neg hc.1.1.1.1.1, if_neg (by tauto), if_neg (by tauto),
      ih (fun d hd => h d (List.mem_cons_of_mem _ hd)), List.reverse_cons, List.append_assoc]
    rfl

theorem endToken_word {text : List Char} (h : IsWord text) : endToken (text.reverse ++ []) = [text] := by
  simp [endToken, h.1]

/-- A comment adds no token (rule R58). -/
theorem tokensFrom_comment (line comment read : List Char) (h : ';' ∉ line) :
    tokensFrom read (line ++ ';' :: comment) = tokensFrom read line := by
  induction line generalizing read with
  | nil => rfl
  | cons c line ih =>
    have hc : c ≠ ';' := fun e => h (e ▸ List.mem_cons_self ..)
    have ih := fun read => ih read fun hm => h (List.mem_cons_of_mem _ hm)
    simp only [List.cons_append, tokensFrom, if_neg hc, ih]

/-- A line's tokens depend on what follows a beginning only by the tokens that it has. -/
theorem tokensFrom_prefix (pre : List Char) {a b : List Char} (h : ∀ read, tokensFrom read a = tokensFrom read b)
    (read : List Char) : tokensFrom read (pre ++ a) = tokensFrom read (pre ++ b) := by
  induction pre generalizing read with
  | nil => exact h read
  | cons c pre ih => simp only [List.cons_append, tokensFrom, ih]

/-- Operands, then an end of the line or of a list, are tokens with commas between them. -/
theorem tokensFrom_operands (ops : List (List Char)) (h : ∀ t ∈ ops, IsWord t) (rest : List Char)
    (hrest : ∀ text : List Char, IsWord text → tokensFrom (text.reverse ++ []) rest = text :: tokensFrom [] rest) :
    tokensFrom [] (operandText ops ++ rest) = ops.intersperse [','] ++ tokensFrom [] rest := by
  induction ops with
  | nil => rfl
  | cons a ops ih =>
    have ha := h a (by simp)
    have ih := ih fun t ht => h t (List.mem_cons_of_mem _ ht)
    cases ops with
    | nil =>
      have e : operandText [a] = a := by simp [operandText]
      rw [e, tokensFrom_word a ha.2, hrest a ha]
      rfl
    | cons b ops =>
      have e : operandText (a :: b :: ops) = a ++ ',' :: ' ' :: operandText (b :: ops) := by simp [operandText]
      have hsep : tokensFrom (a.reverse ++ []) (',' :: ' ' :: operandText (b :: ops) ++ rest) =
          endToken (a.reverse ++ []) ++ [','] :: tokensFrom [] (operandText (b :: ops) ++ rest) := rfl
      rw [e, List.append_assoc, tokensFrom_word a ha.2, hsep, endToken_word ha, ih]
      rfl

/-- The operands between commas, of words. -/
theorem commaList_intersperse (ops : List (List Char)) (h : ∀ t ∈ ops, IsWord t) :
    commaList (ops.intersperse [',']) = some ops := by
  induction ops with
  | nil => rfl
  | cons a ops ih =>
    have ha := isMark_of_isWord (h a (by simp))
    have ih := ih fun t ht => h t (List.mem_cons_of_mem _ ht)
    cases ops with
    | nil => simp [commaList, ha]
    | cons b ops =>
      have hne : (b :: ops).intersperse [','] ≠ [] := by cases ops <;> simp
      rw [List.intersperse_cons_cons, commaList, if_neg (by simp [ha, hne]), ih]
      rfl

/-! ### Lines -/

/-- What a line of an operation without brackets assembles to: what its mnemonic makes of its operands (rule R58). -/
theorem assemble_lineOf {name : List Char} (hn : IsWord name) {m : Mnemonic} (hm : mnemonicOf name = some m)
    (hl : m ≠ .cmdlist) (ops : List (List Char)) (h : ∀ t ∈ ops, IsWord t) :
    assemble (lineOf name ops) = assembleOp m ops := by
  have hops : tokensFrom [] (operandText ops) = ops.intersperse [','] := by
    have := tokensFrom_operands ops h [] fun text ht => by rw [tokensFrom, endToken_word ht]; rfl
    simpa [tokensFrom, endToken] using this
  have htok : tokensFrom [] (lineOf name ops) = name :: ops.intersperse [','] := by
    rw [lineOf, tokensFrom_word name hn.2, tokensFrom, if_neg (by decide), if_pos (by decide), endToken_word hn, hops]
    rfl
  rw [assemble, htok, assembleTokens, hm]
  simp only [operandTokens, if_neg hl, Option.bind_some, commaList_intersperse ops h]

/-- What a line of CMDLIST assembles to: its bytes, all of them (rule R58). -/
theorem assemble_cmdlist (ops : List (List Char)) (h : ∀ t ∈ ops, IsWord t) :
    assemble (['C', 'M', 'D', 'L', 'I', 'S', 'T', ' ', '['] ++ operandText ops ++ [']']) = assembleOp .cmdlist ops := by
  have hend : tokensFrom [] [']'] = [[']']] := by decide
  have hops := tokensFrom_operands ops h [']'] fun text ht => by
    rw [tokensFrom, if_neg (by decide), if_neg (by decide), if_pos (by decide), endToken_word ht]; rfl
  have hstart : ∀ rest, tokensFrom [] (['C', 'M', 'D', 'L', 'I', 'S', 'T', ' ', '['] ++ rest) =
      ['C', 'M', 'D', 'L', 'I', 'S', 'T'] :: ['['] :: tokensFrom [] rest := fun _ => rfl
  rw [assemble, List.append_assoc, hstart, hops, hend, assembleTokens]
  have hm : mnemonicOf ['C', 'M', 'D', 'L', 'I', 'S', 'T'] = some .cmdlist := by decide
  have hb : bracketed (['['] :: (ops.intersperse [','] ++ [[']']])) = some (ops.intersperse [',']) := by
    rw [bracketed, if_pos (by refine ⟨rfl, by simp, by simp [List.getLast?_cons]⟩)]
    simp
  simp only [hm, operandTokens, if_true, hb, Option.bind_some, commaList_intersperse ops h]

end Sys2Proof.Machine
end

