-- ==== Sys2Proof/Laws/Decode.lean ====
section
/-! SUPPORT. Bits of the operation word, the opcode table's rows, and CMDLIST's payload. -/

namespace Sys2Proof

theorem getLsbD_fieldAt {n : Nat} (v : BitVec n) (lo k : Nat) :
    (fieldAt v lo).getLsbD k = (decide (k < 64) && decide (lo ≤ k) && v.getLsbD (k - lo)) := by
  unfold fieldAt
  rw [BitVec.getLsbD_shiftLeft, BitVec.getLsbD_setWidth]
  by_cases h : k < lo
  · have : ¬lo ≤ k := by omega
    simp [h, this]
  · have : lo ≤ k := by omega
    by_cases h64 : k < 64
    · have : k - lo < 64 := by omega
      simp_all
    · simp [h64]

theorem getLsbD_opField (w : OpWord) (k : Nat) : (opField w).getLsbD k = (decide (k < 4) && w.getLsbD k) := by
  unfold opField
  rw [BitVec.getLsbD_extractLsb', Nat.zero_add]

theorem getLsbD_lowField (w : OpWord) (k : Nat) :
    (lowField w).getLsbD k = (decide (k < 16) && w.getLsbD (8 + k)) := by
  unfold lowField
  rw [BitVec.getLsbD_extractLsb']

theorem getLsbD_highField (w : OpWord) (k : Nat) :
    (highField w).getLsbD k = (decide (k < 16) && w.getLsbD (24 + k)) := by
  unfold highField
  rw [BitVec.getLsbD_extractLsb']

/-- The payload bytes of a list are taken as they stand (rule R53). -/
theorem takePayload_map (bytes : List Byte) (rest : List HostInput) :
    takePayload bytes.length (bytes.map .payload ++ rest) = some (bytes, rest) := by
  induction bytes with
  | nil => rfl
  | cons b bs ih => simp [takePayload, ih]

/-- All that taking a payload can do: it takes `n` bytes and leaves what follows (rule R53). -/
theorem takePayload_some {n : Nat} {l : List HostInput} {bytes : List Byte} {rest : List HostInput}
    (h : takePayload n l = some (bytes, rest)) : bytes.length = n ∧ l = bytes.map .payload ++ rest := by
  induction n generalizing l bytes with
  | zero =>
    cases h
    exact ⟨rfl, rfl⟩
  | succ n ih =>
    cases l with
    | nil => cases h
    | cons a l =>
      cases a with
      | op w => cases h
      | reset => cases h
      | payload b =>
        rw [takePayload] at h
        cases ht : takePayload n l with
        | none => rw [ht] at h; cases h
        | some p =>
          obtain ⟨bs, after⟩ := p
          rw [ht] at h
          cases h
          obtain ⟨h1, h2⟩ := ih ht
          exact ⟨by simp [h1], by simp [h2]⟩

/-! ### The rows of the opcode table -/

/-- Every `op` has no row and is illegal, or has one row and is legal (rules R56, R57). -/
theorem findRow_cases (op : BitVec 4) :
    (findRow op = none ∧ (op = 0#4 ∨ 10 ≤ op.toNat)) ∨
      ∃ r ∈ opcodeTable, findRow op = some r ∧ opField r.pattern = op ∧ 1 ≤ op.toNat ∧ op.toNat ≤ 9 := by
  revert op
  decide

/-- A row's mask is `op` and the reserved bits of its format, and its pattern is 0 above `op` (rules R47 to R52). -/
theorem row_bits : ∀ r ∈ opcodeTable, ∀ k, k < 64 →
    r.mask.getLsbD k = (decide (k < 4) || Machine.reservedBit (opField r.pattern).toNat k) ∧
      (4 ≤ k → r.pattern.getLsbD k = false) := by
  decide

theorem reservedBit_low : ∀ op : BitVec 4, ∀ k, k < 4 → Machine.reservedBit op.toNat k = false := by
  decide

/-- A word with the `op` of a row belongs to the row exactly when all its reserved bits are 0 (rule R55). -/
theorem belongs_iff {r : OpcodeRow} (hr : r ∈ opcodeTable) {w : OpWord} (hop : opField w = opField r.pattern) :
    w &&& r.mask = r.pattern ↔
      ∀ k, k < 64 → Machine.reservedBit (opField w).toNat k = true → w.getLsbD k = false := by
  constructor
  · intro h k hk hres
    have h1 := row_bits r hr k hk
    have h2 := congrArg (·.getLsbD k) h
    simp only [BitVec.getLsbD_and, h1.1, ← hop, hres, Bool.or_true, Bool.and_true] at h2
    rw [h2]
    by_cases hk4 : 4 ≤ k
    · exact h1.2 hk4
    · rw [reservedBit_low (opField w) k (by omega)] at hres
      cases hres
  · intro h
    apply BitVec.eq_of_getLsbD_eq
    intro k hk
    have h1 := row_bits r hr k hk
    rw [BitVec.getLsbD_and, h1.1]
    by_cases hk4 : k < 4
    · have h2 := congrArg (·.getLsbD k) hop
      simp only [getLsbD_opField, hk4, decide_true, Bool.true_and] at h2
      simp [-BitVec.getLsbD_eq_getElem, hk4, h2]
    · rw [h1.2 (by omega)]
      simp only [hk4, decide_false, Bool.false_or, ← hop]
      cases hres : Machine.reservedBit (opField w).toNat k with
      | false => simp
      | true => rw [h k hk hres]; rfl

/-- A word that belongs to its row decodes to the row's operation (rule R57). -/
theorem decode_of_belongs {w : OpWord} {r : OpcodeRow} (hf : findRow (opField w) = some r)
    (hm : w &&& r.mask = r.pattern) (following : List HostInput) :
    decode w following = extractFields r.opcode w following := by
  unfold decode
  rw [hf]
  exact if_pos hm

/-- A payload that stops short is not taken (rule R53). -/
theorem takePayload_none (bytes : List Byte) (tail : List HostInput) (n : Nat) (h : bytes.length < n)
    (ht : ∀ b, tail.head? ≠ some (.payload b)) : takePayload n (bytes.map .payload ++ tail) = none := by
  induction n generalizing bytes with
  | zero => omega
  | succ n ih =>
    cases bytes with
    | nil =>
      cases tail with
      | nil => rfl
      | cons a l =>
        cases a with
        | payload b => exact absurd rfl (ht b)
        | op => rfl
        | reset => rfl
    | cons b bs =>
      simp only [List.map_cons, List.cons_append, takePayload]
      rw [ih bs (by simpa using h)]

end Sys2Proof
end

