-- ==== Sys2Proof/Laws/State.lean ====
section
/-! SUPPORT. One lemma per field of State per named update. -/

namespace Sys2Proof.Machine

open Sys2Proof

/-! ### setLife -/

@[simp] theorem State.setLife_life (s : State) (v : Life) : (s.setLife v).life = v := rfl
@[simp] theorem State.setLife_allocFail (s : State) (v : Life) : (s.setLife v).allocFail = s.allocFail := rfl
@[simp] theorem State.setLife_w (s : State) (v : Life) : (s.setLife v).w = s.w := rfl
@[simp] theorem State.setLife_h (s : State) (v : Life) : (s.setLife v).h = s.h := rfl
@[simp] theorem State.setLife_addr (s : State) (v : Life) : (s.setLife v).addr = s.addr := rfl
@[simp] theorem State.setLife_fb (s : State) (v : Life) : (s.setLife v).fb = s.fb := rfl
@[simp] theorem State.setLife_seg (s : State) (v : Life) : (s.setLife v).seg = s.seg := rfl
@[simp] theorem State.setLife_params (s : State) (v : Life) : (s.setLife v).params = s.params := rfl
@[simp] theorem State.setLife_txns (s : State) (v : Life) : (s.setLife v).txns = s.txns := rfl
@[simp] theorem State.setLife_results (s : State) (v : Life) : (s.setLife v).results = s.results := rfl
@[simp] theorem State.setLife_inputs (s : State) (v : Life) : (s.setLife v).inputs = s.inputs := rfl
@[simp] theorem State.setLife_allocAnswers (s : State) (v : Life) : (s.setLife v).allocAnswers = s.allocAnswers := rfl
@[simp] theorem State.setLife_busAnswers (s : State) (v : Life) : (s.setLife v).busAnswers = s.busAnswers := rfl
@[simp] theorem State.setLife_draws (s : State) (v : Life) : (s.setLife v).draws = s.draws := rfl

/-! ### setAllocFail -/

@[simp] theorem State.setAllocFail_life (s : State) (v : Bool) : (s.setAllocFail v).life = s.life := rfl
@[simp] theorem State.setAllocFail_allocFail (s : State) (v : Bool) : (s.setAllocFail v).allocFail = v := rfl
@[simp] theorem State.setAllocFail_w (s : State) (v : Bool) : (s.setAllocFail v).w = s.w := rfl
@[simp] theorem State.setAllocFail_h (s : State) (v : Bool) : (s.setAllocFail v).h = s.h := rfl
@[simp] theorem State.setAllocFail_addr (s : State) (v : Bool) : (s.setAllocFail v).addr = s.addr := rfl
@[simp] theorem State.setAllocFail_fb (s : State) (v : Bool) : (s.setAllocFail v).fb = s.fb := rfl
@[simp] theorem State.setAllocFail_seg (s : State) (v : Bool) : (s.setAllocFail v).seg = s.seg := rfl
@[simp] theorem State.setAllocFail_params (s : State) (v : Bool) : (s.setAllocFail v).params = s.params := rfl
@[simp] theorem State.setAllocFail_txns (s : State) (v : Bool) : (s.setAllocFail v).txns = s.txns := rfl
@[simp] theorem State.setAllocFail_results (s : State) (v : Bool) : (s.setAllocFail v).results = s.results := rfl
@[simp] theorem State.setAllocFail_inputs (s : State) (v : Bool) : (s.setAllocFail v).inputs = s.inputs := rfl
@[simp] theorem State.setAllocFail_allocAnswers (s : State) (v : Bool) : (s.setAllocFail v).allocAnswers = s.allocAnswers := rfl
@[simp] theorem State.setAllocFail_busAnswers (s : State) (v : Bool) : (s.setAllocFail v).busAnswers = s.busAnswers := rfl
@[simp] theorem State.setAllocFail_draws (s : State) (v : Bool) : (s.setAllocFail v).draws = s.draws := rfl

/-! ### latch -/

@[simp] theorem State.latch_life (s : State) (w h : BitVec 9) (addr : BusAddr) : (s.latch w h addr).life = s.life := rfl
@[simp] theorem State.latch_allocFail (s : State) (w h : BitVec 9) (addr : BusAddr) : (s.latch w h addr).allocFail = s.allocFail := rfl
@[simp] theorem State.latch_w (s : State) (w h : BitVec 9) (addr : BusAddr) : (s.latch w h addr).w = w := rfl
@[simp] theorem State.latch_h (s : State) (w h : BitVec 9) (addr : BusAddr) : (s.latch w h addr).h = h := rfl
@[simp] theorem State.latch_addr (s : State) (w h : BitVec 9) (addr : BusAddr) : (s.latch w h addr).addr = addr := rfl
@[simp] theorem State.latch_fb (s : State) (w h : BitVec 9) (addr : BusAddr) : (s.latch w h addr).fb = s.fb := rfl
@[simp] theorem State.latch_seg (s : State) (w h : BitVec 9) (addr : BusAddr) : (s.latch w h addr).seg = s.seg := rfl
@[simp] theorem State.latch_params (s : State) (w h : BitVec 9) (addr : BusAddr) : (s.latch w h addr).params = s.params := rfl
@[simp] theorem State.latch_txns (s : State) (w h : BitVec 9) (addr : BusAddr) : (s.latch w h addr).txns = s.txns := rfl
@[simp] theorem State.latch_results (s : State) (w h : BitVec 9) (addr : BusAddr) : (s.latch w h addr).results = s.results := rfl
@[simp] theorem State.latch_inputs (s : State) (w h : BitVec 9) (addr : BusAddr) : (s.latch w h addr).inputs = s.inputs := rfl
@[simp] theorem State.latch_allocAnswers (s : State) (w h : BitVec 9) (addr : BusAddr) : (s.latch w h addr).allocAnswers = s.allocAnswers := rfl
@[simp] theorem State.latch_busAnswers (s : State) (w h : BitVec 9) (addr : BusAddr) : (s.latch w h addr).busAnswers = s.busAnswers := rfl
@[simp] theorem State.latch_draws (s : State) (w h : BitVec 9) (addr : BusAddr) : (s.latch w h addr).draws = s.draws := rfl

/-! ### setFb -/

@[simp] theorem State.setFb_life (s : State) (m : Memory) : (s.setFb m).life = s.life := rfl
@[simp] theorem State.setFb_allocFail (s : State) (m : Memory) : (s.setFb m).allocFail = s.allocFail := rfl
@[simp] theorem State.setFb_w (s : State) (m : Memory) : (s.setFb m).w = s.w := rfl
@[simp] theorem State.setFb_h (s : State) (m : Memory) : (s.setFb m).h = s.h := rfl
@[simp] theorem State.setFb_addr (s : State) (m : Memory) : (s.setFb m).addr = s.addr := rfl
@[simp] theorem State.setFb_fb (s : State) (m : Memory) : (s.setFb m).fb = m := rfl
@[simp] theorem State.setFb_seg (s : State) (m : Memory) : (s.setFb m).seg = s.seg := rfl
@[simp] theorem State.setFb_params (s : State) (m : Memory) : (s.setFb m).params = s.params := rfl
@[simp] theorem State.setFb_txns (s : State) (m : Memory) : (s.setFb m).txns = s.txns := rfl
@[simp] theorem State.setFb_results (s : State) (m : Memory) : (s.setFb m).results = s.results := rfl
@[simp] theorem State.setFb_inputs (s : State) (m : Memory) : (s.setFb m).inputs = s.inputs := rfl
@[simp] theorem State.setFb_allocAnswers (s : State) (m : Memory) : (s.setFb m).allocAnswers = s.allocAnswers := rfl
@[simp] theorem State.setFb_busAnswers (s : State) (m : Memory) : (s.setFb m).busAnswers = s.busAnswers := rfl
@[simp] theorem State.setFb_draws (s : State) (m : Memory) : (s.setFb m).draws = s.draws := rfl

/-! ### setSeg -/

@[simp] theorem State.setSeg_life (s : State) (v : Option Seg) : (s.setSeg v).life = s.life := rfl
@[simp] theorem State.setSeg_allocFail (s : State) (v : Option Seg) : (s.setSeg v).allocFail = s.allocFail := rfl
@[simp] theorem State.setSeg_w (s : State) (v : Option Seg) : (s.setSeg v).w = s.w := rfl
@[simp] theorem State.setSeg_h (s : State) (v : Option Seg) : (s.setSeg v).h = s.h := rfl
@[simp] theorem State.setSeg_addr (s : State) (v : Option Seg) : (s.setSeg v).addr = s.addr := rfl
@[simp] theorem State.setSeg_fb (s : State) (v : Option Seg) : (s.setSeg v).fb = s.fb := rfl
@[simp] theorem State.setSeg_seg (s : State) (v : Option Seg) : (s.setSeg v).seg = v := rfl
@[simp] theorem State.setSeg_params (s : State) (v : Option Seg) : (s.setSeg v).params = s.params := rfl
@[simp] theorem State.setSeg_txns (s : State) (v : Option Seg) : (s.setSeg v).txns = s.txns := rfl
@[simp] theorem State.setSeg_results (s : State) (v : Option Seg) : (s.setSeg v).results = s.results := rfl
@[simp] theorem State.setSeg_inputs (s : State) (v : Option Seg) : (s.setSeg v).inputs = s.inputs := rfl
@[simp] theorem State.setSeg_allocAnswers (s : State) (v : Option Seg) : (s.setSeg v).allocAnswers = s.allocAnswers := rfl
@[simp] theorem State.setSeg_busAnswers (s : State) (v : Option Seg) : (s.setSeg v).busAnswers = s.busAnswers := rfl
@[simp] theorem State.setSeg_draws (s : State) (v : Option Seg) : (s.setSeg v).draws = s.draws := rfl

/-! ### emit -/

@[simp] theorem State.emit_life (s : State) (t : Txn) : (s.emit t).life = s.life := rfl
@[simp] theorem State.emit_allocFail (s : State) (t : Txn) : (s.emit t).allocFail = s.allocFail := rfl
@[simp] theorem State.emit_w (s : State) (t : Txn) : (s.emit t).w = s.w := rfl
@[simp] theorem State.emit_h (s : State) (t : Txn) : (s.emit t).h = s.h := rfl
@[simp] theorem State.emit_addr (s : State) (t : Txn) : (s.emit t).addr = s.addr := rfl
@[simp] theorem State.emit_fb (s : State) (t : Txn) : (s.emit t).fb = s.fb := rfl
@[simp] theorem State.emit_seg (s : State) (t : Txn) : (s.emit t).seg = s.seg := rfl
@[simp] theorem State.emit_params (s : State) (t : Txn) : (s.emit t).params = s.params := rfl
@[simp] theorem State.emit_txns (s : State) (t : Txn) : (s.emit t).txns = s.txns ++ [t] := rfl
@[simp] theorem State.emit_results (s : State) (t : Txn) : (s.emit t).results = s.results := rfl
@[simp] theorem State.emit_inputs (s : State) (t : Txn) : (s.emit t).inputs = s.inputs := rfl
@[simp] theorem State.emit_allocAnswers (s : State) (t : Txn) : (s.emit t).allocAnswers = s.allocAnswers := rfl
@[simp] theorem State.emit_busAnswers (s : State) (t : Txn) : (s.emit t).busAnswers = s.busAnswers := rfl
@[simp] theorem State.emit_draws (s : State) (t : Txn) : (s.emit t).draws = s.draws := rfl

/-! ### respond -/

@[simp] theorem State.respond_life (s : State) (r : Bool) : (s.respond r).life = s.life := rfl
@[simp] theorem State.respond_allocFail (s : State) (r : Bool) : (s.respond r).allocFail = s.allocFail := rfl
@[simp] theorem State.respond_w (s : State) (r : Bool) : (s.respond r).w = s.w := rfl
@[simp] theorem State.respond_h (s : State) (r : Bool) : (s.respond r).h = s.h := rfl
@[simp] theorem State.respond_addr (s : State) (r : Bool) : (s.respond r).addr = s.addr := rfl
@[simp] theorem State.respond_fb (s : State) (r : Bool) : (s.respond r).fb = s.fb := rfl
@[simp] theorem State.respond_seg (s : State) (r : Bool) : (s.respond r).seg = s.seg := rfl
@[simp] theorem State.respond_params (s : State) (r : Bool) : (s.respond r).params = s.params := rfl
@[simp] theorem State.respond_txns (s : State) (r : Bool) : (s.respond r).txns = s.txns := rfl
@[simp] theorem State.respond_results (s : State) (r : Bool) : (s.respond r).results = s.results ++ [r] := rfl
@[simp] theorem State.respond_inputs (s : State) (r : Bool) : (s.respond r).inputs = s.inputs := rfl
@[simp] theorem State.respond_allocAnswers (s : State) (r : Bool) : (s.respond r).allocAnswers = s.allocAnswers := rfl
@[simp] theorem State.respond_busAnswers (s : State) (r : Bool) : (s.respond r).busAnswers = s.busAnswers := rfl
@[simp] theorem State.respond_draws (s : State) (r : Bool) : (s.respond r).draws = s.draws := rfl

/-! ### setInputs -/

@[simp] theorem State.setInputs_life (s : State) (l : List HostInput) : (s.setInputs l).life = s.life := rfl
@[simp] theorem State.setInputs_allocFail (s : State) (l : List HostInput) : (s.setInputs l).allocFail = s.allocFail := rfl
@[simp] theorem State.setInputs_w (s : State) (l : List HostInput) : (s.setInputs l).w = s.w := rfl
@[simp] theorem State.setInputs_h (s : State) (l : List HostInput) : (s.setInputs l).h = s.h := rfl
@[simp] theorem State.setInputs_addr (s : State) (l : List HostInput) : (s.setInputs l).addr = s.addr := rfl
@[simp] theorem State.setInputs_fb (s : State) (l : List HostInput) : (s.setInputs l).fb = s.fb := rfl
@[simp] theorem State.setInputs_seg (s : State) (l : List HostInput) : (s.setInputs l).seg = s.seg := rfl
@[simp] theorem State.setInputs_params (s : State) (l : List HostInput) : (s.setInputs l).params = s.params := rfl
@[simp] theorem State.setInputs_txns (s : State) (l : List HostInput) : (s.setInputs l).txns = s.txns := rfl
@[simp] theorem State.setInputs_results (s : State) (l : List HostInput) : (s.setInputs l).results = s.results := rfl
@[simp] theorem State.setInputs_inputs (s : State) (l : List HostInput) : (s.setInputs l).inputs = l := rfl
@[simp] theorem State.setInputs_allocAnswers (s : State) (l : List HostInput) : (s.setInputs l).allocAnswers = s.allocAnswers := rfl
@[simp] theorem State.setInputs_busAnswers (s : State) (l : List HostInput) : (s.setInputs l).busAnswers = s.busAnswers := rfl
@[simp] theorem State.setInputs_draws (s : State) (l : List HostInput) : (s.setInputs l).draws = s.draws := rfl

/-! ### setBus -/

@[simp] theorem State.setBus_life (s : State) (l : List BusAnswer) (n : Nat) : (s.setBus l n).life = s.life := rfl
@[simp] theorem State.setBus_allocFail (s : State) (l : List BusAnswer) (n : Nat) : (s.setBus l n).allocFail = s.allocFail := rfl
@[simp] theorem State.setBus_w (s : State) (l : List BusAnswer) (n : Nat) : (s.setBus l n).w = s.w := rfl
@[simp] theorem State.setBus_h (s : State) (l : List BusAnswer) (n : Nat) : (s.setBus l n).h = s.h := rfl
@[simp] theorem State.setBus_addr (s : State) (l : List BusAnswer) (n : Nat) : (s.setBus l n).addr = s.addr := rfl
@[simp] theorem State.setBus_fb (s : State) (l : List BusAnswer) (n : Nat) : (s.setBus l n).fb = s.fb := rfl
@[simp] theorem State.setBus_seg (s : State) (l : List BusAnswer) (n : Nat) : (s.setBus l n).seg = s.seg := rfl
@[simp] theorem State.setBus_params (s : State) (l : List BusAnswer) (n : Nat) : (s.setBus l n).params = s.params := rfl
@[simp] theorem State.setBus_txns (s : State) (l : List BusAnswer) (n : Nat) : (s.setBus l n).txns = s.txns := rfl
@[simp] theorem State.setBus_results (s : State) (l : List BusAnswer) (n : Nat) : (s.setBus l n).results = s.results := rfl
@[simp] theorem State.setBus_inputs (s : State) (l : List BusAnswer) (n : Nat) : (s.setBus l n).inputs = s.inputs := rfl
@[simp] theorem State.setBus_allocAnswers (s : State) (l : List BusAnswer) (n : Nat) : (s.setBus l n).allocAnswers = s.allocAnswers := rfl
@[simp] theorem State.setBus_busAnswers (s : State) (l : List BusAnswer) (n : Nat) : (s.setBus l n).busAnswers = l := rfl
@[simp] theorem State.setBus_draws (s : State) (l : List BusAnswer) (n : Nat) : (s.setBus l n).draws = n := rfl

/-! ### setAlloc -/

@[simp] theorem State.setAlloc_life (s : State) (l : List Bool) (n : Nat) : (s.setAlloc l n).life = s.life := rfl
@[simp] theorem State.setAlloc_allocFail (s : State) (l : List Bool) (n : Nat) : (s.setAlloc l n).allocFail = s.allocFail := rfl
@[simp] theorem State.setAlloc_w (s : State) (l : List Bool) (n : Nat) : (s.setAlloc l n).w = s.w := rfl
@[simp] theorem State.setAlloc_h (s : State) (l : List Bool) (n : Nat) : (s.setAlloc l n).h = s.h := rfl
@[simp] theorem State.setAlloc_addr (s : State) (l : List Bool) (n : Nat) : (s.setAlloc l n).addr = s.addr := rfl
@[simp] theorem State.setAlloc_fb (s : State) (l : List Bool) (n : Nat) : (s.setAlloc l n).fb = s.fb := rfl
@[simp] theorem State.setAlloc_seg (s : State) (l : List Bool) (n : Nat) : (s.setAlloc l n).seg = s.seg := rfl
@[simp] theorem State.setAlloc_params (s : State) (l : List Bool) (n : Nat) : (s.setAlloc l n).params = s.params := rfl
@[simp] theorem State.setAlloc_txns (s : State) (l : List Bool) (n : Nat) : (s.setAlloc l n).txns = s.txns := rfl
@[simp] theorem State.setAlloc_results (s : State) (l : List Bool) (n : Nat) : (s.setAlloc l n).results = s.results := rfl
@[simp] theorem State.setAlloc_inputs (s : State) (l : List Bool) (n : Nat) : (s.setAlloc l n).inputs = s.inputs := rfl
@[simp] theorem State.setAlloc_allocAnswers (s : State) (l : List Bool) (n : Nat) : (s.setAlloc l n).allocAnswers = l := rfl
@[simp] theorem State.setAlloc_busAnswers (s : State) (l : List Bool) (n : Nat) : (s.setAlloc l n).busAnswers = s.busAnswers := rfl
@[simp] theorem State.setAlloc_draws (s : State) (l : List Bool) (n : Nat) : (s.setAlloc l n).draws = n := rfl

/-! ### resetEvent -/

@[simp] theorem State.resetEvent_life (s : State) : (s.resetEvent).life = .uninit := rfl
@[simp] theorem State.resetEvent_allocFail (s : State) : (s.resetEvent).allocFail = false := rfl
@[simp] theorem State.resetEvent_w (s : State) : (s.resetEvent).w = 0 := rfl
@[simp] theorem State.resetEvent_h (s : State) : (s.resetEvent).h = 0 := rfl
@[simp] theorem State.resetEvent_addr (s : State) : (s.resetEvent).addr = 0 := rfl
@[simp] theorem State.resetEvent_fb (s : State) : (s.resetEvent).fb = [] := rfl
@[simp] theorem State.resetEvent_seg (s : State) : (s.resetEvent).seg = none := rfl
@[simp] theorem State.resetEvent_params (s : State) : (s.resetEvent).params = s.params := rfl
@[simp] theorem State.resetEvent_txns (s : State) : (s.resetEvent).txns = [] := rfl
@[simp] theorem State.resetEvent_results (s : State) : (s.resetEvent).results = [] := rfl
@[simp] theorem State.resetEvent_inputs (s : State) : (s.resetEvent).inputs = s.inputs := rfl
@[simp] theorem State.resetEvent_allocAnswers (s : State) : (s.resetEvent).allocAnswers = s.allocAnswers := rfl
@[simp] theorem State.resetEvent_busAnswers (s : State) : (s.resetEvent).busAnswers = s.busAnswers := rfl
@[simp] theorem State.resetEvent_draws (s : State) : (s.resetEvent).draws = s.draws := rfl

/-- The state after some transactions: records added, answers used, everything else as it was. -/
def State.afterBus (s : State) (new : List Txn) (answers : List BusAnswer) (draws : Nat) : State :=
  { s with txns := s.txns ++ new, busAnswers := answers, draws := draws }

/-! ### afterBus -/

@[simp] theorem State.afterBus_life (s : State) (new : List Txn) (l : List BusAnswer) (n : Nat) : (s.afterBus new l n).life = s.life :=
  rfl
@[simp] theorem State.afterBus_allocFail (s : State) (new : List Txn) (l : List BusAnswer) (n : Nat) : (s.afterBus new l n).allocFail = s.allocFail :=
  rfl
@[simp] theorem State.afterBus_w (s : State) (new : List Txn) (l : List BusAnswer) (n : Nat) : (s.afterBus new l n).w = s.w :=
  rfl
@[simp] theorem State.afterBus_h (s : State) (new : List Txn) (l : List BusAnswer) (n : Nat) : (s.afterBus new l n).h = s.h :=
  rfl
@[simp] theorem State.afterBus_addr (s : State) (new : List Txn) (l : List BusAnswer) (n : Nat) : (s.afterBus new l n).addr = s.addr :=
  rfl
@[simp] theorem State.afterBus_fb (s : State) (new : List Txn) (l : List BusAnswer) (n : Nat) : (s.afterBus new l n).fb = s.fb :=
  rfl
@[simp] theorem State.afterBus_seg (s : State) (new : List Txn) (l : List BusAnswer) (n : Nat) : (s.afterBus new l n).seg = s.seg :=
  rfl
@[simp] theorem State.afterBus_params (s : State) (new : List Txn) (l : List BusAnswer) (n : Nat) : (s.afterBus new l n).params = s.params :=
  rfl
@[simp] theorem State.afterBus_txns (s : State) (new : List Txn) (l : List BusAnswer) (n : Nat) : (s.afterBus new l n).txns = s.txns ++ new :=
  rfl
@[simp] theorem State.afterBus_results (s : State) (new : List Txn) (l : List BusAnswer) (n : Nat) : (s.afterBus new l n).results = s.results :=
  rfl
@[simp] theorem State.afterBus_inputs (s : State) (new : List Txn) (l : List BusAnswer) (n : Nat) : (s.afterBus new l n).inputs = s.inputs :=
  rfl
@[simp] theorem State.afterBus_allocAnswers (s : State) (new : List Txn) (l : List BusAnswer) (n : Nat) : (s.afterBus new l n).allocAnswers = s.allocAnswers :=
  rfl
@[simp] theorem State.afterBus_busAnswers (s : State) (new : List Txn) (l : List BusAnswer) (n : Nat) : (s.afterBus new l n).busAnswers = l :=
  rfl
@[simp] theorem State.afterBus_draws (s : State) (new : List Txn) (l : List BusAnswer) (n : Nat) : (s.afterBus new l n).draws = n :=
  rfl

end Sys2Proof.Machine
end

