-- ==== Sys2Proof/Laws/Memory.lean ====
section
/-! SUPPORT. The frame store's bytes: read after write, and that every operation keeps the canonical form. -/

namespace Sys2Proof.Machine

open Sys2Proof

@[simp] theorem Memory.read_nil (i : Nat) : Memory.read [] i = 0 := rfl

theorem Memory.read_cons (a : Nat) (b : Byte) (m : Memory) (i : Nat) :
    Memory.read ((a, b) :: m) i = if i = a then b else Memory.read m i := rfl

theorem Memory.risesFrom_cons {lo a : Nat} {b : Byte} {m : Memory} :
    Memory.risesFrom lo ((a, b) :: m) = true ↔ lo ≤ a ∧ b ≠ 0 ∧ Memory.risesFrom (a + 1) m = true := by
  simp [Memory.risesFrom, and_assoc]

theorem Memory.risesFrom_mono {lo lo' : Nat} (h : lo' ≤ lo) :
    ∀ {m : Memory}, Memory.risesFrom lo m = true → Memory.risesFrom lo' m = true
  | [], _ => rfl
  | (a, b) :: m, hm => by
    rw [Memory.risesFrom_cons] at hm ⊢
    exact ⟨h.trans hm.1, hm.2⟩

/-- Below the first index of a rising memory everything reads `0x00`. -/
theorem Memory.read_of_lt {lo i : Nat} (hi : i < lo) :
    ∀ {m : Memory}, Memory.risesFrom lo m = true → Memory.read m i = 0
  | [], _ => rfl
  | (a, b) :: m, hm => by
    rw [Memory.risesFrom_cons] at hm
    rw [Memory.read_cons, if_neg (by omega)]
    exact Memory.read_of_lt (by omega) hm.2.2

theorem Memory.read_write_same_from {lo i : Nat} (v : Byte) :
    ∀ {m : Memory}, Memory.risesFrom lo m = true → Memory.read (Memory.write m i v) i = v
  | [], _ => by
    unfold Memory.write
    split <;> simp_all [Memory.read_cons]
  | (a, b) :: m, hm => by
    rw [Memory.risesFrom_cons] at hm
    unfold Memory.write
    split
    · next hlt =>
      split
      · next hv => rw [Memory.read_cons, if_neg (by omega), Memory.read_of_lt (by omega) hm.2.2, hv]
      · simp [Memory.read_cons]
    · next hlt =>
      split
      · next heq =>
        split
        · next hv => rw [hv]; exact Memory.read_of_lt (by omega) hm.2.2
        · simp [Memory.read_cons]
      · next heq =>
        rw [Memory.read_cons, if_neg heq]
        exact Memory.read_write_same_from v hm.2.2

/-- A read after a write to the same byte gives the byte written. -/
theorem Memory.read_write_same {m : Memory} (hm : m.wf = true) (i : Nat) (v : Byte) : (m.write i v).read i = v :=
  Memory.read_write_same_from v hm

/-- A write leaves every other byte alone. -/
theorem Memory.read_write_other {i j : Nat} (hij : j ≠ i) (v : Byte) :
    ∀ m : Memory, (m.write i v).read j = m.read j
  | [] => by
    unfold Memory.write
    split <;> simp [Memory.read_cons, hij]
  | (a, b) :: m => by
    unfold Memory.write
    split
    · split <;> simp [Memory.read_cons, hij]
    · split
      · next heq => subst heq; split <;> simp [Memory.read_cons, hij]
      · rw [Memory.read_cons, Memory.read_cons, Memory.read_write_other hij v m]

theorem Memory.risesFrom_write {lo i : Nat} (hlo : lo ≤ i) (v : Byte) :
    ∀ {m : Memory}, Memory.risesFrom lo m = true → Memory.risesFrom lo (Memory.write m i v) = true
  | [], _ => by
    unfold Memory.write
    split
    · rfl
    · exact Memory.risesFrom_cons.2 ⟨hlo, by assumption, rfl⟩
  | (a, b) :: m, hm => by
    have hc := Memory.risesFrom_cons.1 hm
    unfold Memory.write
    split
    · next hlt =>
      split
      · exact hm
      · exact Memory.risesFrom_cons.2 ⟨hlo, by assumption, Memory.risesFrom_cons.2 ⟨hlt, hc.2⟩⟩
    · next hlt =>
      split
      · next heq =>
        subst heq
        split
        · exact Memory.risesFrom_mono (by omega) hc.2.2
        · exact Memory.risesFrom_cons.2 ⟨hlo, by assumption, hc.2.2⟩
      · exact Memory.risesFrom_cons.2 ⟨hc.1, hc.2.1, Memory.risesFrom_write (by omega) v hc.2.2⟩

/-- A write keeps the canonical form. -/
theorem Memory.wf_write {m : Memory} (hm : m.wf = true) (i : Nat) (v : Byte) : (m.write i v).wf = true :=
  Memory.risesFrom_write (Nat.zero_le i) v hm

theorem Memory.below_cons {size a : Nat} {b : Byte} {m : Memory} :
    Memory.below size ((a, b) :: m) = true ↔ a < size ∧ Memory.below size m = true := by
  simp [Memory.below]

/-- A write below the size keeps every listed index below it. -/
theorem Memory.below_write {size i : Nat} (hi : i < size) (v : Byte) :
    ∀ {m : Memory}, Memory.below size m = true → Memory.below size (Memory.write m i v) = true
  | [], _ => by
    unfold Memory.write
    split
    · rfl
    · exact Memory.below_cons.2 ⟨hi, rfl⟩
  | (a, b) :: m, hm => by
    have hc := Memory.below_cons.1 hm
    unfold Memory.write
    split
    · split
      · exact hm
      · exact Memory.below_cons.2 ⟨hi, hm⟩
    · split
      · split
        · exact hc.2
        · exact Memory.below_cons.2 ⟨hi, hc.2⟩
      · exact Memory.below_cons.2 ⟨hc.1, Memory.below_write hi v hc.2⟩

theorem Memory.clearBelow_cons (size a : Nat) (b : Byte) (m : Memory) :
    Memory.clearBelow size ((a, b) :: m) =
      if size ≤ a then (a, b) :: Memory.clearBelow size m else Memory.clearBelow size m := by
  by_cases h : size ≤ a <;> simp [Memory.clearBelow, h]

/-- After clearing, a byte below the size reads `0x00` and every other byte as before. -/
theorem Memory.read_clearBelow (size i : Nat) :
    ∀ m : Memory, (m.clearBelow size).read i = if i < size then 0 else m.read i
  | [] => by simp [Memory.clearBelow]
  | (a, b) :: m => by
    rw [Memory.clearBelow_cons]
    have ih := Memory.read_clearBelow size i m
    split
    · rw [Memory.read_cons, ih, Memory.read_cons]
      split
      · rw [if_neg (by omega)]
      · rfl
    · rw [ih, Memory.read_cons]
      split
      · rfl
      · rw [if_neg (by omega)]

theorem Memory.risesFrom_clearBelow (size : Nat) :
    ∀ {lo : Nat} {m : Memory}, Memory.risesFrom lo m = true → Memory.risesFrom lo (m.clearBelow size) = true
  | _, [], _ => rfl
  | lo, (a, b) :: m, hm => by
    have hc := Memory.risesFrom_cons.1 hm
    rw [Memory.clearBelow_cons]
    split
    · exact Memory.risesFrom_cons.2 ⟨hc.1, hc.2.1, Memory.risesFrom_clearBelow size hc.2.2⟩
    · exact Memory.risesFrom_mono (by omega) (Memory.risesFrom_clearBelow size hc.2.2)

/-- Clearing keeps the canonical form. -/
theorem Memory.wf_clearBelow (size : Nat) {m : Memory} (hm : m.wf = true) : (m.clearBelow size).wf = true :=
  Memory.risesFrom_clearBelow size hm

/-- Clearing a whole frame store empties its list. -/
theorem Memory.clearBelow_of_below {size : Nat} :
    ∀ {m : Memory}, m.below size = true → m.clearBelow size = []
  | [], _ => rfl
  | (a, b) :: m, hm => by
    have hc := Memory.below_cons.1 hm
    rw [Memory.clearBelow_cons, if_neg (by omega), Memory.clearBelow_of_below hc.2]

theorem Memory.eq_of_read_from :
    ∀ {lo : Nat} {m m' : Memory}, Memory.risesFrom lo m = true → Memory.risesFrom lo m' = true →
      (∀ i, m.read i = m'.read i) → m = m'
  | _, [], [], _, _, _ => rfl
  | _, [], (a, b) :: m', _, hm', h => by
    have hc := Memory.risesFrom_cons.1 hm'
    exact absurd (by simpa [Memory.read_cons] using (h a).symm) hc.2.1
  | _, (a, b) :: m, [], hm, _, h => by
    have hc := Memory.risesFrom_cons.1 hm
    exact absurd (by simpa [Memory.read_cons] using h a) hc.2.1
  | _, (a, b) :: m, (a', b') :: m', hm, hm', h => by
    have hc := Memory.risesFrom_cons.1 hm
    have hc' := Memory.risesFrom_cons.1 hm'
    have hne : a = a' := by
      rcases Nat.lt_trichotomy a a' with hlt | heq | hgt
      · have := h a
        rw [Memory.read_cons, if_pos rfl, Memory.read_cons, if_neg (by omega),
          Memory.read_of_lt (by omega) hc'.2.2] at this
        exact absurd this hc.2.1
      · exact heq
      · have := h a'
        rw [Memory.read_cons, if_neg (by omega), Memory.read_of_lt (by omega) hc.2.2, Memory.read_cons,
          if_pos rfl] at this
        exact absurd this.symm hc'.2.1
    subst hne
    have hb : b = b' := by simpa [Memory.read_cons] using h a
    have hm : m = m' := by
      refine Memory.eq_of_read_from hc.2.2 hc'.2.2 fun i => ?_
      by_cases hi : i = a
      · rw [hi, Memory.read_of_lt (by omega) hc.2.2, Memory.read_of_lt (by omega) hc'.2.2]
      · simpa [Memory.read_cons, hi] using h i
    rw [hb, hm]

/-- Equal bytes make equal memories: the canonical form is one list per content. -/
theorem Memory.eq_of_read {m m' : Memory} (hm : m.wf = true) (hm' : m'.wf = true)
    (h : ∀ i, m.read i = m'.read i) : m = m' :=
  Memory.eq_of_read_from hm hm' h

/-- Writing back what a byte holds changes nothing. -/
theorem Memory.write_read_self {m : Memory} (hm : m.wf = true) (i : Nat) : m.write i (m.read i) = m := by
  refine Memory.eq_of_read (Memory.wf_write hm i _) hm fun j => ?_
  by_cases hj : j = i
  · rw [hj, Memory.read_write_same hm]
  · rw [Memory.read_write_other hj]

/-- The last of two writes to one byte stands. -/
theorem Memory.write_write_same {m : Memory} (hm : m.wf = true) (i : Nat) (u v : Byte) :
    (m.write i u).write i v = m.write i v := by
  have hu := Memory.wf_write hm i u
  refine Memory.eq_of_read (Memory.wf_write hu i v) (Memory.wf_write hm i v) fun j => ?_
  by_cases hj : j = i
  · rw [hj, Memory.read_write_same hu, Memory.read_write_same hm]
  · rw [Memory.read_write_other hj, Memory.read_write_other hj, Memory.read_write_other hj]

/-- The memory of the state after reset is canonical (rule R31). -/
theorem State.reset_fb_wf : State.reset.fb.wf = true := rfl

end Sys2Proof.Machine
end

