-- ==== Sys2Proof/Laws/Operands.lean ====
section
/-! SUPPORT. Bits of a byte and the page-packed place of a pixel. -/

namespace Sys2Proof.Machine

open Sys2Proof

/-- Reading a bit of a byte is the bit vector's own bit. -/
theorem takeBit_eq_getLsbD (b : Byte) (k : Nat) : takeBit b k = b.getLsbD k := by
  have h : (b >>> k) &&& 1#8 = (BitVec.ofBool (b.getLsbD k)).setWidth 8 := by
    apply BitVec.eq_of_getLsbD_eq
    intro i hi
    rcases i with - | i
    · simp
    · simp [BitVec.getLsbD_one]
  unfold takeBit
  rw [h]
  cases b.getLsbD k <;> simp

theorem getLsbD_bitMask {k : Nat} (hk : k < 8) (j : Nat) : (bitMask k).getLsbD j = decide (j = k) := by
  unfold bitMask
  rw [BitVec.getLsbD_shiftLeft, BitVec.getLsbD_one]
  by_cases hj : j = k
  · subst hj; simp [hk]
  · have : ¬(j - k = 0 ∧ ¬ j < k) := by omega
    by_cases h8 : j < 8 <;> by_cases hlt : j < k <;> simp_all

/-- Setting or clearing a bit gives that bit its value. -/
theorem takeBit_putBit_same (b : Byte) {k : Nat} (hk : k < 8) (on : Bool) : takeBit (putBit b k on) k = on := by
  rw [takeBit_eq_getLsbD]
  unfold putBit
  cases on <;> simp [getLsbD_bitMask hk, hk]

/-- Setting or clearing a bit leaves the other bits alone. -/
theorem takeBit_putBit_other (b : Byte) {j k : Nat} (hk : k < 8) (hjk : j ≠ k) (on : Bool) :
    takeBit (putBit b k on) j = takeBit b j := by
  rw [takeBit_eq_getLsbD, takeBit_eq_getLsbD]
  unfold putBit
  by_cases hj : j < 8
  · have hm : (bitMask k).getLsbD j = false := by simp [getLsbD_bitMask hk, hjk]
    cases on <;> simp [-BitVec.getLsbD_eq_getElem, hm, hj]
  · rw [BitVec.getLsbD_of_ge _ _ (by omega), BitVec.getLsbD_of_ge _ _ (by omega)]

/-- A byte is its eight bits. -/
theorem byte_ext {b c : Byte} (h : ∀ k, k < 8 → takeBit b k = takeBit c k) : b = c := by
  apply BitVec.eq_of_getLsbD_eq
  intro k hk
  rw [← takeBit_eq_getLsbD, ← takeBit_eq_getLsbD]
  exact h k hk

/-- Giving a bit the value it has changes nothing. -/
theorem putBit_self (b : Byte) {k : Nat} (hk : k < 8) : putBit b k (takeBit b k) = b := by
  refine byte_ext fun j _ => ?_
  by_cases hj : j = k
  · rw [hj, takeBit_putBit_same b hk]
  · rw [takeBit_putBit_other b hk hj]

/-- The last of two settings of one bit stands. -/
theorem putBit_putBit (b : Byte) {k : Nat} (hk : k < 8) (u v : Bool) : putBit (putBit b k u) k v = putBit b k v := by
  refine byte_ext fun j _ => ?_
  by_cases hj : j = k
  · rw [hj, takeBit_putBit_same _ hk, takeBit_putBit_same _ hk]
  · rw [takeBit_putBit_other _ hk hj, takeBit_putBit_other _ hk hj, takeBit_putBit_other _ hk hj]

theorem pixelBit_lt (y : Nat) : pixelBit y < 8 := Nat.mod_lt y (by decide)

/-- An in-range pixel lies inside the frame store (rule R65). -/
theorem pixelIndex_lt {w h x y : Nat} (hx : x < w) (hy : y < h) (h8 : h % 8 = 0) : pixelIndex w x y < w * h / 8 := by
  obtain ⟨p, rfl⟩ : ∃ p, h = 8 * p := ⟨h / 8, by omega⟩
  have hp : y / 8 + 1 ≤ p := by omega
  have e : w * (8 * p) / 8 = p * w := by
    rw [show w * (8 * p) = 8 * (p * w) by ring, Nat.mul_div_cancel_left _ (by decide)]
  rw [e]
  unfold pixelIndex
  calc x + y / 8 * w < w + y / 8 * w := by omega
    _ = (y / 8 + 1) * w := by ring
    _ ≤ p * w := Nat.mul_le_mul_right w hp

/-- Two in-range columns with one byte index are one column in one page (rule R36). -/
theorem pixelIndex_inj {w x y x' y' : Nat} (hx : x < w) (hx' : x' < w) (h : pixelIndex w x y = pixelIndex w x' y') :
    x = x' ∧ y / 8 = y' / 8 := by
  have hw : 0 < w := by omega
  unfold pixelIndex at h
  have hmod := congrArg (· % w) h
  simp only [Nat.add_mul_mod_self_right, Nat.mod_eq_of_lt hx, Nat.mod_eq_of_lt hx'] at hmod
  subst hmod
  exact ⟨rfl, Nat.eq_of_mul_eq_mul_right hw (by omega)⟩

end Sys2Proof.Machine
end

