-- ==== Sys2Proof/Laws/Safety.lean ====
section
/-! SUPPORT. One lemma per field of State per closed form of Safety. -/

namespace Sys2Proof.Machine

open Sys2Proof

/-! ### afterPlan -/

@[simp] theorem State.afterPlan_life (s : State) (plan : List (List Byte)) : (s.afterPlan plan).life = s.life := rfl
@[simp] theorem State.afterPlan_allocFail (s : State) (plan : List (List Byte)) : (s.afterPlan plan).allocFail = s.allocFail :=
  rfl
@[simp] theorem State.afterPlan_w (s : State) (plan : List (List Byte)) : (s.afterPlan plan).w = s.w := rfl
@[simp] theorem State.afterPlan_h (s : State) (plan : List (List Byte)) : (s.afterPlan plan).h = s.h := rfl
@[simp] theorem State.afterPlan_addr (s : State) (plan : List (List Byte)) : (s.afterPlan plan).addr = s.addr := rfl
@[simp] theorem State.afterPlan_fb (s : State) (plan : List (List Byte)) : (s.afterPlan plan).fb = s.fb := rfl
@[simp] theorem State.afterPlan_seg (s : State) (plan : List (List Byte)) : (s.afterPlan plan).seg = s.seg := rfl
@[simp] theorem State.afterPlan_params (s : State) (plan : List (List Byte)) : (s.afterPlan plan).params = s.params :=
  rfl
@[simp] theorem State.afterPlan_txns (s : State) (plan : List (List Byte)) : (s.afterPlan plan).txns = s.txns ++ s.records plan :=
  rfl
@[simp] theorem State.afterPlan_results (s : State) (plan : List (List Byte)) : (s.afterPlan plan).results = s.results :=
  rfl
@[simp] theorem State.afterPlan_inputs (s : State) (plan : List (List Byte)) : (s.afterPlan plan).inputs = s.inputs :=
  rfl
@[simp] theorem State.afterPlan_allocAnswers (s : State) (plan : List (List Byte)) : (s.afterPlan plan).allocAnswers = s.allocAnswers :=
  rfl
@[simp] theorem State.afterPlan_busAnswers (s : State) (plan : List (List Byte)) : (s.afterPlan plan).busAnswers = s.busAnswers.drop (s.sent plan.length) :=
  rfl
@[simp] theorem State.afterPlan_draws (s : State) (plan : List (List Byte)) : (s.afterPlan plan).draws = s.draws + (s.sent plan.length - s.busAnswers.length) :=
  rfl

/-! ### afterAllocDraw -/

@[simp] theorem State.afterAllocDraw_life (s : State) : (s.afterAllocDraw).life = s.life := rfl
@[simp] theorem State.afterAllocDraw_allocFail (s : State) : (s.afterAllocDraw).allocFail = s.allocFail := rfl
@[simp] theorem State.afterAllocDraw_w (s : State) : (s.afterAllocDraw).w = s.w := rfl
@[simp] theorem State.afterAllocDraw_h (s : State) : (s.afterAllocDraw).h = s.h := rfl
@[simp] theorem State.afterAllocDraw_addr (s : State) : (s.afterAllocDraw).addr = s.addr := rfl
@[simp] theorem State.afterAllocDraw_fb (s : State) : (s.afterAllocDraw).fb = s.fb := rfl
@[simp] theorem State.afterAllocDraw_seg (s : State) : (s.afterAllocDraw).seg = s.seg := rfl
@[simp] theorem State.afterAllocDraw_params (s : State) : (s.afterAllocDraw).params = s.params := rfl
@[simp] theorem State.afterAllocDraw_txns (s : State) : (s.afterAllocDraw).txns = s.txns := rfl
@[simp] theorem State.afterAllocDraw_results (s : State) : (s.afterAllocDraw).results = s.results := rfl
@[simp] theorem State.afterAllocDraw_inputs (s : State) : (s.afterAllocDraw).inputs = s.inputs := rfl
@[simp] theorem State.afterAllocDraw_allocAnswers (s : State) : (s.afterAllocDraw).allocAnswers = s.allocAnswers.tail :=
  rfl
@[simp] theorem State.afterAllocDraw_busAnswers (s : State) : (s.afterAllocDraw).busAnswers = s.busAnswers := rfl
@[simp] theorem State.afterAllocDraw_draws (s : State) : (s.afterAllocDraw).draws = s.draws + (1 - s.allocAnswers.length) :=
  rfl

/-! ### afterAlloc -/

@[simp] theorem State.afterAlloc_life (s : State) (w h : Nat) (addr : BusAddr) : (s.afterAlloc w h addr).life = .active :=
  rfl
@[simp] theorem State.afterAlloc_allocFail (s : State) (w h : Nat) (addr : BusAddr) : (s.afterAlloc w h addr).allocFail = s.allocFail :=
  rfl
@[simp] theorem State.afterAlloc_w (s : State) (w h : Nat) (addr : BusAddr) : (s.afterAlloc w h addr).w = BitVec.ofNat 9 w :=
  rfl
@[simp] theorem State.afterAlloc_h (s : State) (w h : Nat) (addr : BusAddr) : (s.afterAlloc w h addr).h = BitVec.ofNat 9 h :=
  rfl
@[simp] theorem State.afterAlloc_addr (s : State) (w h : Nat) (addr : BusAddr) : (s.afterAlloc w h addr).addr = addr :=
  rfl
@[simp] theorem State.afterAlloc_fb (s : State) (w h : Nat) (addr : BusAddr) : (s.afterAlloc w h addr).fb = [] := rfl
@[simp] theorem State.afterAlloc_seg (s : State) (w h : Nat) (addr : BusAddr) : (s.afterAlloc w h addr).seg = s.seg :=
  rfl
@[simp] theorem State.afterAlloc_params (s : State) (w h : Nat) (addr : BusAddr) : (s.afterAlloc w h addr).params = s.params :=
  rfl
@[simp] theorem State.afterAlloc_txns (s : State) (w h : Nat) (addr : BusAddr) : (s.afterAlloc w h addr).txns = s.txns :=
  rfl
@[simp] theorem State.afterAlloc_results (s : State) (w h : Nat) (addr : BusAddr) : (s.afterAlloc w h addr).results = s.results :=
  rfl
@[simp] theorem State.afterAlloc_inputs (s : State) (w h : Nat) (addr : BusAddr) : (s.afterAlloc w h addr).inputs = s.inputs :=
  rfl
@[simp] theorem State.afterAlloc_allocAnswers (s : State) (w h : Nat) (addr : BusAddr) : (s.afterAlloc w h addr).allocAnswers = s.allocAnswers.tail :=
  rfl
@[simp] theorem State.afterAlloc_busAnswers (s : State) (w h : Nat) (addr : BusAddr) : (s.afterAlloc w h addr).busAnswers = s.busAnswers :=
  rfl
@[simp] theorem State.afterAlloc_draws (s : State) (w h : Nat) (addr : BusAddr) : (s.afterAlloc w h addr).draws = s.draws + (1 - s.allocAnswers.length) :=
  rfl

end Sys2Proof.Machine
end

