-- ==== Sys2Proof/Laws/Stream.lean ====
section
/-! SUPPORT. What a transaction, the segmenter, FLUSH's body and INIT's bring-up do, said once: each runs a plan, and a plan's outcome is known in closed form. -/

namespace Sys2Proof.Machine

open Sys2Proof

/-! ### Flows -/

@[simp] theorem Flow.mapState_going (s : State) (f : State → State) : (Flow.going s).mapState f = .going (f s) := rfl
@[simp] theorem Flow.mapState_aborted (s : State) (f : State → State) :
    (Flow.aborted s).mapState f = .aborted (f s) := rfl
@[simp] theorem Flow.mapState_waiting (f : State → State) : Flow.waiting.mapState f = .waiting := rfl
@[simp] theorem Flow.andThen_going (s : State) (k : State → Flow) : (Flow.going s).andThen k = k s := rfl
@[simp] theorem Flow.andThen_aborted (s : State) (k : State → Flow) : (Flow.aborted s).andThen k = .aborted s := rfl
@[simp] theorem Flow.andThen_waiting (k : State → Flow) : Flow.waiting.andThen k = .waiting := rfl
@[simp] theorem Flow.finish_going (s : State) (r : Bool) : (Flow.going s).finish r = .next (s.respond r) := rfl
@[simp] theorem Flow.finish_aborted (s : State) (r : Bool) : (Flow.aborted s).finish r = .next (s.respond r) := rfl
@[simp] theorem Flow.finish_waiting (r : Bool) : Flow.waiting.finish r = .fault .transportSilent := rfl

theorem Flow.mapState_mapState (f : Flow) (g h : State → State) :
    (f.mapState g).mapState h = f.mapState fun s => h (g s) := by
  cases f <;> rfl

theorem Flow.andThen_assoc (f : Flow) (g h : State → Flow) :
    (f.andThen g).andThen h = f.andThen fun s => (g s).andThen h := by
  cases f <;> rfl

/-- A property of the state of a flow, the transport permitting. -/
def Flow.All (P : State → Prop) : Flow → Prop
  | .going s => P s
  | .aborted s => P s
  | .waiting => True

theorem Flow.All.imp {P Q : State → Prop} (h : ∀ s, P s → Q s) : ∀ {f : Flow}, f.All P → f.All Q
  | .going _, hf => h _ hf
  | .aborted _, hf => h _ hf
  | .waiting, _ => trivial

/-- An operation that ends in a next state ended its flow, and only then answered. -/
theorem Flow.finish_eq_next {f : Flow} {r : Bool} {t : State} {P : State → Prop} (hf : f.All P)
    (h : f.finish r = .next t) : ∃ u, P u ∧ t = u.respond r := by
  cases f with
  | going s => exact ⟨s, hf, by simpa using h.symm⟩
  | aborted s => exact ⟨s, hf, by simpa using h.symm⟩
  | waiting => cases h

/-! ### Plans -/

/-- The transactions of a plan, one after the other. -/
def runPlan : List (List Byte) → State → Flow
  | [], s => .going s
  | b :: bs, s => (transact b s).andThen (runPlan bs)

@[simp] theorem runPlan_nil (s : State) : runPlan [] s = .going s := rfl
@[simp] theorem runPlan_cons (b : List Byte) (bs : List (List Byte)) (s : State) :
    runPlan (b :: bs) s = (transact b s).andThen (runPlan bs) := rfl

theorem runPlan_singleton (b : List Byte) (s : State) : runPlan [b] s = transact b s := by
  rw [runPlan_cons]
  cases transact b s <;> rfl

theorem runPlan_append (p q : List (List Byte)) (s : State) :
    runPlan (p ++ q) s = (runPlan p s).andThen (runPlan q) := by
  induction p generalizing s with
  | nil => rfl
  | cons b bs ih =>
    rw [List.cons_append, runPlan_cons, runPlan_cons, Flow.andThen_assoc]
    congr 1
    funext s'
    exact ih s'

/-! ### What one transaction can do -/

theorem State.afterBus_nil (s : State) : s = s.afterBus [] s.busAnswers s.draws := by
  simp [State.afterBus]

theorem State.afterBus_afterBus (s : State) (new new' : List Txn) (l l' : List BusAnswer) (n n' : Nat) :
    (s.afterBus new l n).afterBus new' l' n' = s.afterBus (new ++ new') l' n' := by
  simp [State.afterBus]

/-- A draw of the transport's answer changes only the answers still to come. -/
theorem State.drawBus_snd (s : State) : ∃ l n, s.drawBus.2 = s.setBus l n := by
  unfold State.drawBus
  split
  · exact ⟨_, _, rfl⟩
  · exact ⟨_, _, rfl⟩

/-- All a transaction can do: it emits one record with its bytes to `ADDR` and uses up answers (rule R75). -/
theorem transact_all (b : List Byte) (s : State) :
    (transact b s).All fun t => ∃ ok l n, t = s.afterBus [⟨s.addr, b, ok⟩] l n := by
  obtain ⟨l, n, hs⟩ := s.drawBus_snd
  unfold transact
  split
  · next ok s' hd =>
    have : s' = s.setBus l n := by rw [hd] at hs; exact hs
    subst this
    split <;> exact ⟨ok, l, n, rfl⟩
  · trivial

/-- All a plan can do: it emits records to `ADDR`, whose bytes are a prefix of the plan (rules R75, R80). -/
theorem runPlan_all (plan : List (List Byte)) (s : State) :
    (runPlan plan s).All fun t =>
      ∃ new l n, t = s.afterBus new l n ∧ new.map Txn.bytes <+: plan ∧ ∀ x ∈ new, x.addr = s.addr := by
  induction plan generalizing s with
  | nil => exact ⟨[], s.busAnswers, s.draws, s.afterBus_nil, List.prefix_rfl, by simp⟩
  | cons b bs ih =>
    have hb := transact_all b s
    rw [runPlan_cons]
    cases ht : transact b s with
    | going u =>
      rw [ht] at hb
      obtain ⟨ok, l, n, rfl⟩ := hb
      refine (ih _).imp ?_
      rintro t ⟨new, l', n', rfl, hpre, haddr⟩
      refine ⟨⟨s.addr, b, ok⟩ :: new, l', n', by rw [State.afterBus_afterBus]; rfl, ?_, ?_⟩
      · simpa using hpre
      · simpa [State.afterBus] using haddr
    | aborted u =>
      rw [ht] at hb
      obtain ⟨ok, l, n, rfl⟩ := hb
      exact ⟨[⟨s.addr, b, ok⟩], l, n, rfl, by simp, by simp⟩
    | waiting => trivial

theorem transact_of_nil {s : State} (h : s.busAnswers = []) (b : List Byte) :
    transact b s =
      if s.params.onBusFail = .abortOp ∧ Config.busOk s.draws = false
      then .aborted (s.afterBus [⟨s.addr, b, Config.busOk s.draws⟩] [] (s.draws + 1))
      else .going (s.afterBus [⟨s.addr, b, Config.busOk s.draws⟩] [] (s.draws + 1)) := by
  have hd : s.drawBus = (.answer (Config.busOk s.draws), s.setBus [] (s.draws + 1)) := by
    unfold State.drawBus; rw [h]
  unfold transact; rw [hd]; rfl

theorem transact_of_answer {s : State} {ok : Bool} {rest : List BusAnswer} (h : s.busAnswers = .answer ok :: rest)
    (b : List Byte) :
    transact b s =
      if s.params.onBusFail = .abortOp ∧ ok = false then .aborted (s.afterBus [⟨s.addr, b, ok⟩] rest s.draws)
      else .going (s.afterBus [⟨s.addr, b, ok⟩] rest s.draws) := by
  have hd : s.drawBus = (.answer ok, s.setBus rest s.draws) := by unfold State.drawBus; rw [h]
  unfold transact; rw [hd]; rfl

theorem transact_of_never {s : State} {rest : List BusAnswer} (h : s.busAnswers = .never :: rest) (b : List Byte) :
    transact b s = .waiting := by
  have hd : s.drawBus = (.never, s.setBus rest s.draws) := by unfold State.drawBus; rw [h]
  unfold transact; rw [hd]

/-- Transactions neither read nor write `SEG`. -/
theorem transact_setSeg (b : List Byte) (v : Option Seg) (s : State) :
    transact b (s.setSeg v) = (transact b s).mapState (·.setSeg v) := by
  cases h : s.busAnswers with
  | nil =>
    rw [transact_of_nil h, transact_of_nil (s := s.setSeg v) h]
    rw [apply_ite fun f : Flow => f.mapState (·.setSeg v)]
    rfl
  | cons a rest =>
    cases a with
    | answer ok =>
      rw [transact_of_answer h, transact_of_answer (s := s.setSeg v) h]
      rw [apply_ite fun f : Flow => f.mapState (·.setSeg v)]
      rfl
    | never => rw [transact_of_never h, transact_of_never (s := s.setSeg v) h]; rfl

theorem runPlan_setSeg (plan : List (List Byte)) (v : Option Seg) (s : State) :
    runPlan plan (s.setSeg v) = (runPlan plan s).mapState (·.setSeg v) := by
  induction plan generalizing s with
  | nil => rfl
  | cons b bs ih =>
    rw [runPlan_cons, runPlan_cons, transact_setSeg]
    cases transact b s <;> simp [ih]

/-! ### The segmenter runs the chunk plan -/

/-- The greedy cut from the front into pieces of `chunk` bytes (rule R77). -/
def greedyCut (chunk : Nat) : Nat → List Byte → List (List Byte)
  | 0, _ => []
  | _ + 1, [] => []
  | fuel + 1, b :: bs => (b :: bs).take chunk :: greedyCut chunk fuel ((b :: bs).drop chunk)

/-- The greedy cut makes `ceil(L / P)` pieces, piece `j` from byte `j * P` on (rule R78). -/
theorem greedyCut_eq {chunk : Nat} (hc : 1 ≤ chunk) (fuel : Nat) (l : List Byte) (hf : l.length ≤ fuel) :
    greedyCut chunk fuel l =
      (List.range ((l.length + chunk - 1) / chunk)).map fun j => (l.drop (j * chunk)).take chunk := by
  induction fuel generalizing l with
  | zero =>
    have : l = [] := List.length_eq_zero_iff.1 (by omega)
    subst this
    rw [List.length_nil, Nat.div_eq_of_lt (by omega)]
    rfl
  | succ fuel ih =>
    cases l with
    | nil =>
      rw [List.length_nil, Nat.div_eq_of_lt (by omega)]
      rfl
    | cons b bs =>
      have hlen : ((b :: bs).drop chunk).length ≤ fuel := by
        simp only [List.length_drop, List.length_cons] at hf ⊢
        omega
      rw [greedyCut, ih _ hlen]
      have hcount : ((b :: bs).length + chunk - 1) / chunk =
          (((b :: bs).drop chunk).length + chunk - 1) / chunk + 1 := by
        simp only [List.length_drop, List.length_cons]
        by_cases hle : chunk ≤ bs.length + 1
        · rw [← Nat.add_div_right _ (by omega)]
          congr 1
          omega
        · have e : bs.length + 1 - chunk = 0 := by omega
          rw [e, Nat.div_eq_of_lt (show 0 + chunk - 1 < chunk by omega)]
          exact Nat.div_eq_of_lt_le (by omega) (by omega)
      rw [hcount, List.range_succ_eq_map, List.map_cons, List.map_map]
      simp only [Nat.zero_mul, List.drop_zero, List.cons.injEq, true_and]
      apply List.map_congr_left
      intro j _
      simp only [Function.comp, List.drop_drop]
      congr 2
      rw [Nat.succ_mul]
      omega

/-- The loop of rule R77 sends what is left between `SEG.pos` and `SEG.len`, cut from the front. -/
theorem streamLoop_eq {chunk : Nat} (hc : 1 ≤ chunk) (marker : Byte) (bytes : List Byte) (len : BitVec 16)
    (hlen : len.toNat ≤ bytes.length) (fuel : Nat) (pos : BitVec 16) (s : State)
    (hs : s.seg = some ⟨marker, pos, len⟩) (hf : len.toNat - pos.toNat ≤ fuel) :
    (streamLoop chunk bytes fuel s).mapState (·.setSeg none) =
      (runPlan ((greedyCut chunk fuel ((bytes.drop pos.toNat).take (len.toNat - pos.toNat))).map (marker :: ·))
        s).mapState (·.setSeg none) := by
  induction fuel generalizing pos s with
  | zero => rfl
  | succ fuel ih =>
    rw [streamLoop, hs]
    by_cases hlt : pos.toNat < len.toNat
    · have hleft : ((bytes.drop pos.toNat).take (len.toNat - pos.toNat)).length = len.toNat - pos.toNat := by
        rw [List.length_take, List.length_drop]
        omega
      obtain ⟨b, bs, hd⟩ : ∃ b bs, (bytes.drop pos.toNat).take (len.toNat - pos.toNat) = b :: bs := by
        cases h : (bytes.drop pos.toNat).take (len.toNat - pos.toNat) with
        | nil => rw [h] at hleft; simp at hleft; omega
        | cons b bs => exact ⟨b, bs, rfl⟩
      have hpos : (pos + BitVec.ofNat 16 (min chunk (len.toNat - pos.toNat))).toNat =
          pos.toNat + min chunk (len.toNat - pos.toNat) := by
        have := len.isLt
        rw [BitVec.toNat_add, BitVec.toNat_ofNat, Nat.add_mod_mod, Nat.mod_eq_of_lt (by omega)]
      have htake : (bytes.drop pos.toNat).take (min chunk (len.toNat - pos.toNat)) = (b :: bs).take chunk := by
        rw [← hd, List.take_take]
      have hdrop : (bytes.drop (pos.toNat + min chunk (len.toNat - pos.toNat))).take
          (len.toNat - (pos.toNat + min chunk (len.toNat - pos.toNat))) = (b :: bs).drop chunk := by
        rw [← hd, List.drop_take, List.drop_drop]
        rcases Nat.le_total chunk (len.toNat - pos.toNat) with h | h
        · rw [Nat.min_eq_left h, Nat.sub_add_eq]
        · rw [Nat.min_eq_right h, Nat.sub_eq_zero_of_le (by omega), Nat.sub_eq_zero_of_le h]
          rfl
      simp only [hlt, if_true]
      rw [htake, hd, greedyCut, List.map_cons, runPlan_cons]
      cases ht : transact (marker :: (b :: bs).take chunk) s with
      | going u =>
        simp only [Flow.andThen_going]
        rw [ih _ _ rfl (by omega), hpos, hdrop, runPlan_setSeg, Flow.mapState_mapState]
        cases runPlan ((greedyCut chunk fuel ((b :: bs).drop chunk)).map (marker :: ·)) u <;> rfl
      | aborted u => rfl
      | waiting => rfl
    · simp only [hlt, if_false]
      rw [Nat.sub_eq_zero_of_le (by omega)]
      rfl

theorem chunkSize_pos {s : State} (hs : s.Configured) (len : Nat) : 1 ≤ chunkSize s.params len := by
  unfold chunkSize
  split
  · next h => have := hs h; omega
  · omega

theorem chunkPlan_eq_greedyCut {p : Params} {bytes : List Byte} (h : 1 ≤ chunkSize p bytes.length) (marker : Byte) :
    chunkPlan p marker bytes =
      (greedyCut (chunkSize p bytes.length) bytes.length bytes).map (marker :: ·) := by
  rw [greedyCut_eq h _ _ le_rfl, List.map_map]
  rfl

/-- All `Stream` can do, whatever the length of its bytes: it cuts what `SEG.len` counts from the front. -/
theorem stream_eq_cut {s : State} (hs : s.Configured) (marker : Byte) (bytes : List Byte) :
    stream marker bytes s =
      (runPlan ((greedyCut (chunkSize s.params bytes.length) bytes.length
        (bytes.take (bytes.length % 65536))).map (marker :: ·)) s).mapState (·.setSeg none) := by
  have hlen : (BitVec.ofNat 16 bytes.length).toNat = bytes.length % 65536 := BitVec.toNat_ofNat ..
  have hle := Nat.mod_le bytes.length 65536
  unfold stream
  rw [streamLoop_eq (chunkSize_pos hs bytes.length) marker bytes _ (by omega) _ 0 _ rfl (by omega), hlen,
    runPlan_setSeg, Flow.mapState_mapState]
  rfl

/-- `Stream(marker, B)` runs its chunk plan and leaves `SEG` idle (rules R77, R78). -/
theorem stream_eq {s : State} (hs : s.Configured) (marker : Byte) {bytes : List Byte} (hb : bytes.length ≤ 65535) :
    stream marker bytes s = (runPlan (chunkPlan s.params marker bytes) s).mapState (·.setSeg none) := by
  rw [stream_eq_cut hs, Nat.mod_eq_of_lt (by omega), List.take_length, chunkPlan_eq_greedyCut (chunkSize_pos hs _)]

/-- A stream of one byte is one transaction (rule R82). -/
theorem chunkPlan_one {p : Params} (h : 1 ≤ chunkSize p 1) (marker c : Byte) :
    chunkPlan p marker [c] = [[marker, c]] := by
  rw [chunkPlan_eq_greedyCut (bytes := [c]) h, List.length_singleton, greedyCut, greedyCut,
    List.take_of_length_le (by simpa using h)]
  rfl

/-- `Stream(marker, [c])` is one transaction, with `SEG` idle afterwards (rule R82). -/
theorem stream_one {s : State} (hs : s.Configured) (marker c : Byte) :
    stream marker [c] s = (transact [marker, c] s).mapState (·.setSeg none) := by
  rw [stream_eq hs marker (by simp), chunkPlan_one (chunkSize_pos hs 1), runPlan_singleton]

/-! ### A plan in closed form -/

theorem State.sent_one (s : State) : s.sent 1 = 1 := by
  unfold State.sent
  cases s.params.onBusFail with
  | keepGoing => rfl
  | abortOp => cases h : s.reply 0 <;> simp [List.range_succ, h]

theorem State.afterPlan_eq (s : State) (plan : List (List Byte)) :
    s.afterPlan plan = s.afterBus (s.records plan) (s.busAnswers.drop (s.sent plan.length))
      (s.draws + (s.sent plan.length - s.busAnswers.length)) := rfl

theorem State.records_one (s : State) (b : List Byte) : s.records [b] = [⟨s.addr, b, s.reply 0⟩] := by
  simp [State.records, State.sent_one]

theorem State.afterPlan_one (s : State) (b : List Byte) :
    s.afterPlan [b] =
      s.afterBus [⟨s.addr, b, s.reply 0⟩] (s.busAnswers.drop 1) (s.draws + (1 - s.busAnswers.length)) := by
  rw [State.afterPlan_eq, State.records_one, List.length_singleton, State.sent_one]

/-- One answered transaction (rules R75, R80). -/
theorem transact_eq {s : State} (hs : s.AnswersFirst 1) (b : List Byte) :
    transact b s =
      if s.params.onBusFail = .abortOp ∧ s.reply 0 = false then .aborted (s.afterPlan [b])
      else .going (s.afterPlan [b]) := by
  rw [State.afterPlan_one]
  cases hb : s.busAnswers with
  | nil =>
    have hr : s.reply 0 = Config.busOk s.draws := by unfold State.reply; rw [hb]; rfl
    rw [transact_of_nil hb, hr]
    rfl
  | cons a rest =>
    cases a with
    | answer ok =>
      have hr : s.reply 0 = ok := by unfold State.reply; rw [hb]; rfl
      have hn : 1 - (BusAnswer.answer ok :: rest).length = 0 := by simp
      rw [transact_of_answer hb, hr, hn]
      rfl
    | never => exact absurd rfl (hs .never (by rw [hb]; exact List.mem_cons_self ..))

theorem State.reply_afterPlan_one (s : State) (b : List Byte) (j : Nat) :
    (s.afterPlan [b]).reply j = s.reply (j + 1) := by
  have hp : (s.afterPlan [b]).busAnswers = s.busAnswers.drop 1 := by simp [State.afterPlan, State.sent_one]
  have hd : (s.afterPlan [b]).draws = s.draws + (1 - s.busAnswers.length) := by
    simp [State.afterPlan, State.sent_one]
  unfold State.reply
  rw [hp, hd]
  cases hb : s.busAnswers with
  | nil => simp [Nat.add_comm, Nat.add_left_comm]
  | cons a rest =>
    simp

theorem State.sent_succ {s : State} (h : ¬(s.params.onBusFail = .abortOp ∧ s.reply 0 = false)) (b : List Byte)
    (n : Nat) : s.sent (n + 1) = (s.afterPlan [b]).sent n + 1 := by
  have hp : (s.afterPlan [b]).params = s.params := rfl
  unfold State.sent
  rw [hp]
  cases hf : s.params.onBusFail with
  | keepGoing => rfl
  | abortOp =>
    have h0 : s.reply 0 = true := by
      cases h0 : s.reply 0 with
      | true => rfl
      | false => exact absurd ⟨hf, h0⟩ h
    rw [List.range_succ_eq_map, List.find?_cons]
    simp only [h0, Bool.not_true, List.find?_map, Function.comp_def,
      State.reply_afterPlan_one]
    cases (List.range n).find? fun j => !s.reply (j + 1) <;> simp

theorem State.sent_of_fail {s : State} (h : s.params.onBusFail = .abortOp ∧ s.reply 0 = false) (n : Nat) :
    s.sent (n + 1) = 1 := by
  unfold State.sent
  rw [h.1, List.range_succ_eq_map, List.find?_cons]
  simp [h.2]

theorem State.afterPlan_cons {s : State} (h : ¬(s.params.onBusFail = .abortOp ∧ s.reply 0 = false)) (b : List Byte)
    (bs : List (List Byte)) : (s.afterPlan [b]).afterPlan bs = s.afterPlan (b :: bs) := by
  have hrec : s.records (b :: bs) = ⟨s.addr, b, s.reply 0⟩ :: (s.afterPlan [b]).records bs := by
    unfold State.records
    rw [List.length_cons, State.sent_succ h b, List.take_succ_cons, List.zipIdx_cons, List.map_cons]
    rw [List.zipIdx_succ, List.map_map]
    simp only [Function.comp_def, State.reply_afterPlan_one]
    rfl
  have hl : s.sent (bs.length + 1) = (s.afterPlan [b]).sent bs.length + 1 := State.sent_succ h b _
  rw [State.afterPlan_eq (s.afterPlan [b]), State.afterPlan_eq s (b :: bs), hrec, List.length_cons, hl]
  generalize (s.afterPlan [b]).records bs = new
  generalize (s.afterPlan [b]).sent bs.length = n
  rw [State.afterPlan_one, State.afterBus_afterBus]
  congr 1
  · simp [State.afterBus]
  · simp only [State.afterBus, List.length_drop]
    omega

theorem State.afterPlan_of_fail {s : State} (h : s.params.onBusFail = .abortOp ∧ s.reply 0 = false) (b : List Byte)
    (bs : List (List Byte)) : s.afterPlan (b :: bs) = s.afterPlan [b] := by
  simp [State.afterPlan, State.records, State.sent_of_fail h]

theorem State.answersFirst_afterPlan {s : State} {n : Nat} (h : s.AnswersFirst (n + 1)) (b : List Byte) :
    (s.afterPlan [b]).AnswersFirst n := by
  intro a ha
  have e1 : (s.afterPlan [b]).busAnswers = s.busAnswers.drop 1 := by simp [State.afterPlan, State.sent_one]
  rw [e1] at ha
  refine h a ?_
  cases hb : s.busAnswers with
  | nil => rw [hb] at ha; simp at ha
  | cons c rest => rw [hb] at ha; exact List.mem_cons_of_mem c (by simpa using ha)

theorem State.afterPlan_nil (s : State) : s.afterPlan [] = s := by
  have : s.sent 0 = 0 := by unfold State.sent; cases s.params.onBusFail <;> rfl
  simp [State.afterPlan, State.records, this]

/-- An answered plan ends, going on or aborted, in the state `afterPlan` gives (rules R78, R80). -/
theorem runPlan_eq (plan : List (List Byte)) (s : State) (hs : s.AnswersFirst plan.length) :
    runPlan plan s = .going (s.afterPlan plan) ∨ runPlan plan s = .aborted (s.afterPlan plan) := by
  induction plan generalizing s with
  | nil => exact .inl (by rw [State.afterPlan_nil]; rfl)
  | cons b bs ih =>
    have h1 : s.AnswersFirst 1 := fun a ha =>
      hs a (List.mem_of_mem_take (i := 1) (by
        rw [List.take_take, List.length_cons, Nat.min_eq_left (by omega)]; exact ha))
    rw [runPlan_cons, transact_eq h1]
    split
    · next hfail => exact .inr (by rw [State.afterPlan_of_fail hfail b bs, Flow.andThen_aborted])
    · next hok =>
      rw [Flow.andThen_going, ← State.afterPlan_cons hok b bs]
      exact ih _ (State.answersFirst_afterPlan hs b)

/-- An operation that runs an answered plan completes (rule R97). -/
theorem finish_runPlan {plan : List (List Byte)} {s : State} (hs : s.AnswersFirst plan.length) (r : Bool) :
    (runPlan plan s).finish r = .next ((s.afterPlan plan).respond r) := by
  rcases runPlan_eq plan s hs with h | h <;> rw [h] <;> rfl

theorem finish_runPlan_idle {plan : List (List Byte)} {s : State} (hs : s.AnswersFirst plan.length) (r : Bool) :
    ((runPlan plan s).mapState (·.setSeg none)).finish r = .next (((s.afterPlan plan).setSeg none).respond r) := by
  rcases runPlan_eq plan s hs with h | h <;> rw [h] <;> rfl

/-- A nonempty plan whose first transaction is never answered is stuck (rule R100). -/
theorem runPlan_never {s : State} {rest : List BusAnswer} (hs : s.busAnswers = .never :: rest) (b : List Byte)
    (bs : List (List Byte)) : runPlan (b :: bs) s = .waiting := by
  rw [runPlan_cons, transact_of_never hs]
  rfl

/-! ### Plans that run to their end -/

/-- A plan that runs to its end is emitted whole (rules R78, R80). -/
theorem State.sent_of_runsToEnd {s : State} {n : Nat} (h : s.RunsToEnd n) : s.sent n = n := by
  unfold State.sent
  rcases h with h | h
  · rw [h]
  · cases s.params.onBusFail with
    | keepGoing => rfl
    | abortOp =>
      have hf : ((List.range n).find? fun j => !s.reply j) = none := by
        rw [List.find?_eq_none]
        intro j hj
        simp [h j (by simpa using hj)]
      simp only [hf]

/-- An answered plan that runs to its end goes on (rule R78). -/
theorem runPlan_of_runsToEnd {plan : List (List Byte)} {s : State} (ha : s.AnswersFirst plan.length)
    (hr : s.RunsToEnd plan.length) : runPlan plan s = .going (s.afterPlan plan) := by
  induction plan generalizing s with
  | nil => rw [State.afterPlan_nil]; rfl
  | cons b bs ih =>
    have h1 : s.AnswersFirst 1 := fun a haa =>
      ha a (List.mem_of_mem_take (i := 1) (by
        rw [List.take_take, List.length_cons, Nat.min_eq_left (by omega)]; exact haa))
    have hok : ¬(s.params.onBusFail = .abortOp ∧ s.reply 0 = false) := by
      rintro ⟨h2, h3⟩
      rcases hr with h | h
      · rw [h] at h2; cases h2
      · rw [h 0 (by simp)] at h3; cases h3
    rw [runPlan_cons, transact_eq h1, if_neg hok, Flow.andThen_going, ← State.afterPlan_cons hok b bs]
    refine ih (State.answersFirst_afterPlan ha b) ?_
    rcases hr with h | h
    · exact .inl h
    · exact .inr fun j hj => by rw [State.reply_afterPlan_one]; exact h _ (by simpa using hj)

/-- The bytes of the records are the part of the plan that was sent. -/
theorem State.records_bytes (s : State) (plan : List (List Byte)) :
    (s.records plan).map Txn.bytes = plan.take (s.sent plan.length) := by
  have hfst : (Txn.bytes ∘ fun e : List Byte × Nat => (⟨s.addr, e.1, s.reply e.2⟩ : Txn)) = Prod.fst := rfl
  unfold State.records
  rw [List.map_map, hfst]
  simp

/-- A plan that goes on was emitted whole, in order (rule R75). -/
theorem runPlan_going {plan : List (List Byte)} {s t : State} (h : runPlan plan s = .going t) :
    ∃ new, t.txns = s.txns ++ new ∧ new.map Txn.bytes = plan := by
  induction plan generalizing s with
  | nil => cases h; exact ⟨[], by simp⟩
  | cons b bs ih =>
    rw [runPlan_cons] at h
    have hb := transact_all b s
    cases ht : transact b s with
    | going u =>
      rw [ht] at hb h
      obtain ⟨ok, l, n, rfl⟩ := hb
      obtain ⟨new, h1, h2⟩ := ih h
      exact ⟨⟨s.addr, b, ok⟩ :: new, by rw [h1]; simp [State.afterBus], by simp [h2]⟩
    | aborted u => rw [ht] at h; cases h
    | waiting => rw [ht] at h; cases h

/-- `Stream` plans `ceil(L / P)` transactions (rule R78). -/
theorem chunkPlan_length (p : Params) (marker : Byte) (bytes : List Byte) :
    (chunkPlan p marker bytes).length = chunkCount p bytes.length := by
  simp [chunkPlan]

/-- The first `n` pieces of the greedy cut are the first `n * P` bytes (rule R79). -/
theorem greedyCut_take_flatten {chunk : Nat} (hc : 1 ≤ chunk) (fuel : Nat) (l : List Byte) (hf : l.length ≤ fuel)
    (n : Nat) : ((greedyCut chunk fuel l).take n).flatten = l.take (n * chunk) := by
  induction fuel generalizing l n with
  | zero =>
    obtain rfl : l = [] := List.length_eq_zero_iff.1 (by omega)
    simp [greedyCut]
  | succ m ih =>
    cases l with
    | nil => simp [greedyCut]
    | cons b bs =>
      cases n with
      | zero => simp
      | succ n =>
        rw [greedyCut, List.take_succ_cons, List.flatten_cons, ih _ (by simp at hf ⊢; omega), Nat.succ_mul,
          Nat.add_comm (n * chunk) chunk, List.take_add]

/-- A scripted answer depends on the script only. -/
theorem State.reply_of_scripted {s t : State} (h : t.busAnswers = s.busAnswers) {j : Nat}
    (hj : j < s.busAnswers.length) :
    t.reply j = s.reply j := by
  unfold State.reply
  rw [h, List.getElem?_eq_getElem hj]
  cases s.busAnswers[j] <;> rfl

/-- A plan that reaches a transaction the transport never answers is stuck (rule R100). -/
theorem runPlan_silent {plan : List (List Byte)} {s : State} {k : Nat} (hk : k < plan.length)
    (hn : s.busAnswers[k]? = some .never) (ha : s.AnswersFirst k) (hr : s.RunsToEnd k) :
    runPlan plan s = .waiting := by
  have hlt : k < s.busAnswers.length := (List.getElem?_eq_some_iff.1 hn).1
  have hlen : (plan.take k).length = k := by rw [List.length_take]; omega
  have hfirst : runPlan (plan.take k) s = .going (s.afterPlan (plan.take k)) :=
    runPlan_of_runsToEnd (by rwa [hlen]) (by rwa [hlen])
  have hbus : (s.afterPlan (plan.take k)).busAnswers = s.busAnswers.drop k := by
    rw [State.afterPlan_eq, State.afterBus_busAnswers, hlen, State.sent_of_runsToEnd hr]
  have hnext : (s.afterPlan (plan.take k)).busAnswers = .never :: s.busAnswers.drop (k + 1) := by
    rw [hbus, List.drop_eq_getElem_cons hlt, (List.getElem?_eq_some_iff.1 hn).2]
  rw [← List.take_append_drop k plan, runPlan_append, hfirst, Flow.andThen_going, List.drop_eq_getElem_cons hk]
  exact runPlan_never hnext _ _

end Sys2Proof.Machine
end

