-- ==== Sys2Proof/Laws/Exec.lean ====
section
/-! SUPPORT. What the shared conditions, the bodies of FLUSH and INIT, and an operation as a whole can do, said once each. -/

namespace Sys2Proof.Machine

open Sys2Proof

/-! ### Conditions -/

theorem configBad_eq_false {s : State} : s.configBad = false ↔ s.Configured := by
  unfold State.configBad State.Configured
  cases s.params.chunkEnable with
  | false => simp
  | true => simp; omega

theorem configBad_eq_true {s : State} : s.configBad = true ↔ ¬s.Configured := by
  rw [← configBad_eq_false]
  cases s.configBad <;> simp

theorem gateClosed_eq_false {s : State} : s.gateClosed = false ↔ s.Allocated := by
  unfold State.gateClosed State.Allocated
  cases s.allocFail <;> simp

theorem gateClosed_eq_true {s : State} : s.gateClosed = true ↔ s.allocFail = true ∨ s.life = .uninit := by
  unfold State.gateClosed
  simp

theorem inRange_eq_true {s : State} {x y : Int} : s.inRange x y = true ↔ s.Holds x y := by
  unfold State.inRange State.Holds
  simp [and_assoc]

theorem legalGeometry_eq_true {w h : Nat} : legalGeometry w h = true ↔ LegalGeometry w h := by
  unfold legalGeometry LegalGeometry
  simp [and_assoc]

theorem configured_of {s : State} (hs : s.Configured) (i : Instr) (body : State → Result) :
    configured i s body = body s := by
  unfold configured
  rw [configBad_eq_false.2 hs]
  rfl

theorem configured_of_not {s : State} (hs : ¬s.Configured) (i : Instr) (body : State → Result) :
    configured i s body = .refused (.badConfig (encodeWord i)) := by
  unfold configured
  rw [configBad_eq_true.2 hs]
  rfl

/-- An operation whose gate is open runs its body. -/
theorem gated_of_open {s : State} (hs : s.Configured) (ha : s.Allocated) (i : Instr) (body : State → Result) :
    gated i s body = body s := by
  unfold gated
  rw [configured_of hs, gateClosed_eq_false.2 ha]
  rfl

/-- An operation whose gate is closed is a no-op (rule R89). -/
theorem gated_of_closed {s : State} (hs : s.Configured) (hg : s.allocFail = true ∨ s.life = .uninit) (i : Instr)
    (body : State → Result) : gated i s body = .next (s.respond false) := by
  unfold gated
  rw [configured_of hs, gateClosed_eq_true.2 hg]
  rfl

/-- All a gated operation can do when it answers a next state: the no-op, or its body. -/
theorem gated_cases {i : Instr} {s t : State} {body : State → Result} (h : gated i s body = .next t) :
    s.Configured ∧ (t = s.respond false ∨ (s.Allocated ∧ body s = .next t)) := by
  by_cases hs : s.Configured
  · refine ⟨hs, ?_⟩
    by_cases ha : s.Allocated
    · exact .inr ⟨ha, by rwa [gated_of_open hs ha] at h⟩
    · rw [← gateClosed_eq_false, Bool.not_eq_false, gateClosed_eq_true] at ha
      rw [gated_of_closed hs ha] at h
      exact .inl (by simpa using h.symm)
  · unfold gated at h
    rw [configured_of_not hs] at h
    cases h

/-! ### Pixels -/

theorem fbSize_of_allocated {s : State} (h : s.life ≠ .uninit) : s.fbSize = s.w.toNat * s.h.toNat / 8 := if_neg h

/-- From a state that meets the invariant an in-range pixel lies inside the frame store (rule R65). -/
theorem pixelIndex_lt_fbSize {s : State} (hi : s.Inv) (ha : s.Allocated) {x y : Nat} (hx : x < s.w.toNat)
    (hy : y < s.h.toNat) : pixelIndex s.w.toNat x y < s.fbSize := by
  rw [fbSize_of_allocated ha.2]
  exact pixelIndex_lt hx hy (hi.2.2.2.2 ha.2).2.2.2.2

theorem State.Holds.toNat {s : State} {x y : Int} (h : s.Holds x y) : x.toNat < s.w.toNat ∧ y.toNat < s.h.toNat := by
  obtain ⟨h1, h2, h3, h4⟩ := h
  omega

/-- Writing an in-range pixel writes one byte (rule R66). -/
theorem writePixel_of_holds {s : State} (hi : s.Inv) (ha : s.Allocated) {x y : Nat} (hx : x < s.w.toNat)
    (hy : y < s.h.toNat) (on : Bool) :
    writePixel x y on s =
      .next ((s.setFb (s.fb.write (pixelIndex s.w.toNat x y)
        (putBit (s.fb.read (pixelIndex s.w.toNat x y)) (pixelBit y) on))).respond false) := by
  unfold writePixel
  simp only
  rw [if_pos (pixelIndex_lt_fbSize hi ha hx hy)]
  rfl

/-- A written pixel reads as written, and every other pixel as before (rules R33, R36). -/
theorem pixel_of_write {s : State} (hm : s.fb.wf = true) {x y : Nat} (hx : x < s.w.toNat) (on : Bool) {x' y' : Nat}
    (hx' : x' < s.w.toNat) :
    takeBit ((s.fb.write (pixelIndex s.w.toNat x y)
        (putBit (s.fb.read (pixelIndex s.w.toNat x y)) (pixelBit y) on)).read (pixelIndex s.w.toNat x' y'))
        (pixelBit y') =
      if x' = x ∧ y' = y then on else s.pixel x' y' := by
  unfold State.pixel
  by_cases he : pixelIndex s.w.toNat x' y' = pixelIndex s.w.toNat x y
  · obtain ⟨hxx, hyy⟩ := pixelIndex_inj hx' hx he
    rw [he, Memory.read_write_same hm]
    by_cases hb : pixelBit y' = pixelBit y
    · have hy : y' = y := by unfold pixelBit at hb; omega
      rw [if_pos ⟨hxx, hy⟩, hb, takeBit_putBit_same _ (pixelBit_lt y)]
    · rw [takeBit_putBit_other _ (pixelBit_lt y) hb, if_neg]
      rintro ⟨-, rfl⟩
      exact hb rfl
  · rw [Memory.read_write_other he, if_neg]
    rintro ⟨rfl, rfl⟩
    exact he rfl

/-! ### Bodies that emit transactions -/

/-- `FB` and the window are within what `SEG.len` counts, in any state (rule R26). -/
theorem fbBytes_fits (s : State) : s.fbBytes.length ≤ 65535 := by
  have hw := s.w.isLt
  have hh := s.h.isLt
  have hmul : s.w.toNat * s.h.toNat ≤ 511 * 511 := Nat.mul_le_mul (by omega) (by omega)
  rw [State.fbBytes, List.length_map, List.length_range]
  unfold State.fbSize
  split <;> omega

theorem window_fits (s : State) : s.window.length ≤ 65535 := by
  simp [State.window]

/-- FLUSH's body runs FLUSH's plan (rules R84, R85). -/
theorem flushBody_eq {s : State} (hs : s.Configured) :
    flushBody s =
      (runPlan (flushPlan s.params s.w.toNat s.h.toNat s.fbBytes) s).mapState (·.setSeg none) := by
  have hall := runPlan_all (chunkPlan s.params 0x00#8 (windowOf s.w.toNat s.h.toNat)) s
  unfold flushBody flushPlan
  rw [stream_eq hs _ (window_fits s), runPlan_append]
  change ((runPlan (chunkPlan s.params 0x00#8 (windowOf s.w.toNat s.h.toNat)) s).mapState _).andThen _ = _
  cases hr : runPlan (chunkPlan s.params 0x00#8 (windowOf s.w.toNat s.h.toNat)) s with
  | going u =>
    rw [hr] at hall
    obtain ⟨new, l, n, rfl, -, -⟩ := hall
    rw [Flow.mapState_going, Flow.andThen_going, Flow.andThen_going,
      stream_eq (s := (s.afterBus new l n).setSeg none) hs _ (fbBytes_fits _),
      runPlan_setSeg, Flow.mapState_mapState]
    rfl
  | aborted u => rfl
  | waiting => rfl

theorem State.setSeg_self (u : State) : u.setSeg u.seg = u := rfl

theorem mapState_setSeg_of_idle {plan : List (List Byte)} {u : State} (hu : u.seg = none) :
    (runPlan plan u).mapState (·.setSeg none) = runPlan plan u := by
  have he : u.setSeg none = u := by rw [← hu, State.setSeg_self]
  rw [← runPlan_setSeg, he]

/-- A run of streams runs their plans; `SEG` ends idle if it was idle. -/
theorem streamGroups_eq {s : State} (hs : s.Configured) (hseg : s.seg = none) (marker : Byte)
    (gs : List CommandGroup) :
    streamGroups marker gs s = runPlan (gs.flatMap fun g => chunkPlan s.params marker g.bytes) s := by
  induction gs generalizing s with
  | nil => rfl
  | cons g gs ih =>
    have hall := runPlan_all (chunkPlan s.params marker g.bytes) s
    rw [streamGroups, List.flatMap_cons, runPlan_append, stream_eq hs _ g.fits, mapState_setSeg_of_idle hseg]
    cases hr : runPlan (chunkPlan s.params marker g.bytes) s with
    | going u =>
      rw [hr] at hall
      obtain ⟨new, l, n, rfl, -, -⟩ := hall
      exact ih (s := s.afterBus new l n) hs hseg
    | aborted u => rfl
    | waiting => rfl

/-- INIT's transactions run INIT's plan, from a zero-filled frame store (rule R91). -/
theorem bringUp_eq {s : State} (hs : s.Configured) (hseg : s.seg = none)
    (hfb : s.fbBytes = List.replicate (s.w.toNat * s.h.toNat / 8) 0x00#8) :
    bringUp s = runPlan (initPlan s.params s.w.toNat s.h.toNat) s := by
  unfold bringUp initPlan
  rw [streamGroups_eq hs hseg, List.append_assoc, runPlan_append]
  have hall := runPlan_all ((tableGroups s.params.initTable s.w.toNat s.h.toNat).flatMap
    fun g => chunkPlan s.params 0x00#8 g.bytes) s
  change (runPlan ((tableGroups s.params.initTable s.w.toNat s.h.toNat).flatMap
    fun g => chunkPlan s.params 0x00#8 g.bytes) s).andThen _ = _
  cases hr : runPlan ((tableGroups s.params.initTable s.w.toNat s.h.toNat).flatMap
      fun g => chunkPlan s.params 0x00#8 g.bytes) s with
  | going u =>
    rw [hr] at hall
    obtain ⟨new, l, n, rfl, -, -⟩ := hall
    rw [Flow.andThen_going, Flow.andThen_going, List.singleton_append, runPlan_cons]
    have hall' := transact_all [0x00#8, 0xAF#8] (s.afterBus new l n)
    change (transact [0x00#8, 0xAF#8] (s.afterBus new l n)).andThen _ = _
    cases ht : transact [0x00#8, 0xAF#8] (s.afterBus new l n) with
    | going v =>
      rw [ht] at hall'
      obtain ⟨ok, l', n', rfl⟩ := hall'
      generalize hu : (s.afterBus new l n).afterBus [⟨(s.afterBus new l n).addr, [0x00#8, 0xAF#8], ok⟩] l' n' = u
      have hp : u.Configured := by subst hu; exact hs
      have hi : u.seg = none := by subst hu; exact hseg
      rw [Flow.andThen_going, Flow.andThen_going, flushBody_eq hp, mapState_setSeg_of_idle hi, ← hfb]
      subst hu
      rfl
    | aborted v => rfl
    | waiting => rfl
  | aborted u => rfl
  | waiting => rfl

/-! ### Framed transactions -/

/-- A transaction's byte list is framed: a marker of rule R61, then 1 to `P` payload bytes. -/
def FramedBytes (p : Params) (b : List Byte) : Prop :=
  2 ≤ b.length ∧ (b.head? = some 0x00#8 ∨ b.head? = some 0x40#8) ∧ (p.chunkEnable = true → b.length ≤ p.maxTxn)

theorem greedyCut_ne_nil {chunk : Nat} (hc : 1 ≤ chunk) (fuel : Nat) (l : List Byte) :
    ∀ g ∈ greedyCut chunk fuel l, g ≠ [] ∧ g.length ≤ chunk := by
  induction fuel generalizing l with
  | zero => simp [greedyCut]
  | succ fuel ih =>
    cases l with
    | nil => simp [greedyCut]
    | cons b bs =>
      intro g hg
      rw [greedyCut, List.mem_cons] at hg
      rcases hg with rfl | hg
      · constructor
        · simp only [ne_eq, List.take_eq_nil_iff]; simp; omega
        · simp only [List.length_take]; omega
      · exact ih _ g hg

/-- The pieces of a greedy cut are framed, whatever length the chunk size was taken for (rules R60, R76). -/
theorem greedyCut_framed {p : Params} (hp : p.chunkEnable = true → 2 ≤ p.maxTxn) {marker : Byte}
    (hm : marker = 0x00#8 ∨ marker = 0x40#8) (len fuel : Nat) (l : List Byte) :
    ∀ b ∈ (greedyCut (chunkSize p len) fuel l).map (marker :: ·), FramedBytes p b := by
  have hc : 1 ≤ chunkSize p len := by
    unfold chunkSize
    split
    · next h => have := hp h; omega
    · omega
  intro b hb
  obtain ⟨g, hg, rfl⟩ := List.mem_map.1 hb
  have hcut := greedyCut_ne_nil hc _ _ g hg
  have hpos : 0 < g.length := List.length_pos_iff.2 hcut.1
  refine ⟨by simp only [List.length_cons]; omega, by rcases hm with rfl | rfl <;> simp, fun he => ?_⟩
  have := hp he
  have hle : g.length ≤ p.maxTxn - 1 := by simpa [chunkSize, he] using hcut.2
  simp only [List.length_cons]
  omega

/-- The chunks of a stream are framed (rules R60, R76, R79). -/
theorem chunkPlan_framed {p : Params} (hp : p.chunkEnable = true → 2 ≤ p.maxTxn) {marker : Byte}
    (hm : marker = 0x00#8 ∨ marker = 0x40#8) (bytes : List Byte) :
    ∀ b ∈ chunkPlan p marker bytes, FramedBytes p b := by
  have hc : 1 ≤ chunkSize p bytes.length := by
    unfold chunkSize
    split
    · next h => have := hp h; omega
    · omega
  rw [chunkPlan_eq_greedyCut hc]
  exact greedyCut_framed hp hm _ _ _

theorem flushPlan_framed {p : Params} (hp : p.chunkEnable = true → 2 ≤ p.maxTxn) (w h : Nat) (bytes : List Byte) :
    ∀ b ∈ flushPlan p w h bytes, FramedBytes p b := by
  intro b hb
  rcases List.mem_append.1 hb with hb | hb
  · exact chunkPlan_framed hp (.inl rfl) _ b hb
  · exact chunkPlan_framed hp (.inr rfl) _ b hb

theorem pair_framed {p : Params} (hp : p.chunkEnable = true → 2 ≤ p.maxTxn) (c : Byte) :
    FramedBytes p [0x00#8, c] :=
  ⟨le_rfl, .inl rfl, hp⟩

theorem initPlan_framed {p : Params} (hp : p.chunkEnable = true → 2 ≤ p.maxTxn) (w h : Nat) :
    ∀ b ∈ initPlan p w h, FramedBytes p b := by
  intro b hb
  rcases List.mem_append.1 hb with hb | hb
  · rcases List.mem_append.1 hb with hb | hb
    · obtain ⟨g, -, hb⟩ := List.mem_flatMap.1 hb
      exact chunkPlan_framed hp (.inl rfl) _ b hb
    · rw [List.mem_singleton.1 hb]
      exact pair_framed hp _
  · exact flushPlan_framed hp _ _ _ b hb

/-! ### All an operation can do -/

/-- The state after an operation's transactions: framed records to `ADDR`, answers used, `SEG` idle. -/
def BusRun (s t : State) : Prop :=
  ∃ new l n, t = s.afterBus new l n ∧ ∀ x ∈ new, x.addr = s.addr ∧ Txn.Framed s.params x

theorem busRun_of_plan {plan : List (List Byte)} {s : State} (hp : ∀ b ∈ plan, FramedBytes s.params b) :
    (runPlan plan s).All (BusRun s) := by
  refine (runPlan_all plan s).imp ?_
  rintro t ⟨new, l, n, rfl, hpre, haddr⟩
  refine ⟨new, l, n, rfl, fun x hx => ⟨haddr x hx, ?_⟩⟩
  exact hp x.bytes (hpre.subset (List.mem_map_of_mem hx))

theorem Flow.All.mapState {f : Flow} {P : State → Prop} {g : State → State} (h : f.All P) :
    (f.mapState g).All fun t => ∃ u, P u ∧ t = g u := by
  cases f with
  | going s => exact ⟨s, h, rfl⟩
  | aborted s => exact ⟨s, h, rfl⟩
  | waiting => trivial

theorem allocate_eq (s : State) (width height : Field16) (addr : BusAddr) :
    (s.drawAlloc.2).allocate width height addr = s.afterAlloc width.toNat height.toNat addr := by
  have e : ∀ v : Field16, v.setWidth 9 = BitVec.ofNat 9 v.toNat := by
    intro v
    apply BitVec.eq_of_toNat_eq
    simp
  unfold State.allocate State.drawAlloc State.afterAlloc State.afterAllocDraw
  rw [e, e]
  cases s.allocAnswers <;> simp [State.latch, State.setFb, State.setLife, State.setAlloc, Memory.clearBelow]

theorem drawAlloc_fst (s : State) : s.drawAlloc.1 = s.allocReply := by
  unfold State.drawAlloc State.allocReply
  cases s.allocAnswers <;> rfl

theorem drawAlloc_snd (s : State) : s.drawAlloc.2 = s.afterAllocDraw := by
  unfold State.drawAlloc State.afterAllocDraw
  cases h : s.allocAnswers <;> simp [State.setAlloc]

theorem toNat_ofNat9 {n : Nat} (h : n ≤ 256) : (BitVec.ofNat 9 n).toNat = n := by
  rw [BitVec.toNat_ofNat, Nat.mod_eq_of_lt (by omega)]

theorem fbBytes_of_empty {s : State} (h : s.fb = []) : s.fbBytes = List.replicate s.fbSize 0x00#8 := by
  unfold State.fbBytes
  rw [h, List.eq_replicate_iff]
  simp

/-- INIT's transactions after a successful allocation run INIT's plan (rule R91). -/
theorem bringUp_afterAlloc {s : State} (hs : s.Configured) (hseg : s.seg = none) {w h : Nat} (hg : LegalGeometry w h)
    (addr : BusAddr) : bringUp (s.afterAlloc w h addr) = runPlan (initPlan s.params w h) (s.afterAlloc w h addr) := by
  have hw : (s.afterAlloc w h addr).w.toNat = w := toNat_ofNat9 hg.2.1
  have hh : (s.afterAlloc w h addr).h.toNat = h := toNat_ofNat9 hg.2.2.2.1
  have hfb : (s.afterAlloc w h addr).fbBytes =
      List.replicate ((s.afterAlloc w h addr).w.toNat * (s.afterAlloc w h addr).h.toNat / 8) 0x00#8 := by
    rw [fbBytes_of_empty rfl, fbSize_of_allocated (by simp [State.afterAlloc])]
  rw [bringUp_eq (s := s.afterAlloc w h addr) hs hseg hfb, hw, hh]
  rfl

/-- INIT, by its conditions (rule R91). -/
theorem execInit_eq {s : State} (hs : s.Configured) (width height : Field16) (addr : BusAddr) :
    execInit width height addr s =
      if ¬LegalGeometry width.toNat height.toNat then
        .refused (.badGeometry (encodeWord (.init width height addr)))
      else if s.allocFail = true then .next (s.respond false)
      else if s.life ≠ .uninit then .refused (.reinit (encodeWord (.init width height addr)))
      else if s.allocReply = true ∧ width.toNat * height.toNat / 8 ≤ s.params.fbBytesMax then
        (bringUp (s.afterAlloc width.toNat height.toNat addr)).finish true
      else .next ((s.afterAllocDraw.setAllocFail true).respond false) := by
  unfold execInit
  rw [configured_of hs, drawAlloc_fst, allocate_eq, drawAlloc_snd]
  by_cases hg : LegalGeometry width.toNat height.toNat
  · rw [if_neg (by rw [legalGeometry_eq_true.2 hg]; simp), if_neg (not_not_intro hg)]
    rfl
  · rw [if_pos (by rw [legalGeometry_eq_true]; exact hg), if_pos hg]

/-- All an operation can do when it answers a next state. -/
inductive ExecNext (s : State) : Instr → State → Prop where
  /-- A no-op (rule R99). -/
  | noop (i : Instr) : ExecNext s i (s.respond false)
  /-- GETPX's answer (rule R69). -/
  | read (x y : Field16) (r : Bool) : s.Allocated → ExecNext s (.getpx x y) (s.respond r)
  /-- A pixel written by SETPX (rule R66). -/
  | setpx (x y : Field16) (on : Bool) (k : Nat) (v : Byte) :
    s.Allocated → k < s.fbSize → ExecNext s (.setpx x y on) ((s.setFb (s.fb.write k v)).respond false)
  /-- A pixel written by SETRGB (rule R68). -/
  | setrgb (x y : Field16) (r g b : Byte) (k : Nat) (v : Byte) :
    s.Allocated → k < s.fbSize → ExecNext s (.setrgb x y r g b) ((s.setFb (s.fb.write k v)).respond false)
  /-- CLEAR (rule R70). -/
  | clear : s.Allocated → ExecNext s .clear ((s.setFb (s.fb.clearBelow s.fbSize)).respond false)
  /-- CMD (rule R82). -/
  | cmd (c : Byte) (u : State) : s.Allocated → BusRun s u → ExecNext s (.cmd c) ((u.setSeg none).respond false)
  /-- CMDLIST (rule R83). -/
  | cmdlist (payload : List Byte) (u : State) :
    s.Allocated → BusRun s u → ExecNext s (.cmdlist payload) ((u.setSeg none).respond false)
  /-- FLUSH (rule R85). -/
  | flush (u : State) : s.Allocated → BusRun s u → ExecNext s .flush ((u.setSeg none).respond false)
  /-- SHUTDOWN (rule R95). -/
  | shutdown (u : State) : s.Allocated → BusRun (s.setLife .off) u →
    ExecNext s .shutdown ((u.setSeg none).respond false)
  /-- INIT whose allocation fails (rule R101). -/
  | initFails (width height : Field16) (addr : BusAddr) : s.allocFail = false → s.life = .uninit →
    ExecNext s (.init width height addr) ((s.afterAllocDraw.setAllocFail true).respond false)
  /-- INIT whose allocation succeeds (rule R91); `SEG` is idle afterwards if it was idle before. -/
  | initRuns (width height : Field16) (addr : BusAddr) (u : State) : s.allocFail = false → s.life = .uninit →
    LegalGeometry width.toNat height.toNat →
    (s.seg = none → BusRun (s.afterAlloc width.toNat height.toNat addr) u) →
    (∃ new l n v, u = ((s.afterAlloc width.toNat height.toNat addr).afterBus new l n).setSeg v ∧
      ∀ x ∈ new, x.addr = addr ∧ Txn.Framed s.params x) →
    ExecNext s (.init width height addr) (u.respond true)

/-- A run of transactions that may leave `SEG` in any state. -/
def BusRunSeg (s t : State) : Prop :=
  ∃ new l n v, t = (s.afterBus new l n).setSeg v ∧ ∀ x ∈ new, x.addr = s.addr ∧ Txn.Framed s.params x

theorem BusRunSeg.trans {s t u : State} (h : BusRunSeg s t) (h' : BusRunSeg t u) : BusRunSeg s u := by
  obtain ⟨new, l, n, v, rfl, hn⟩ := h
  obtain ⟨new', l', n', v', rfl, hn'⟩ := h'
  refine ⟨new ++ new', l', n', v', by simp [State.afterBus, State.setSeg], ?_⟩
  intro x hx
  rcases List.mem_append.1 hx with hx | hx
  · exact hn x hx
  · exact hn' x hx

theorem BusRunSeg.refl (s : State) : BusRunSeg s s :=
  ⟨[], s.busAnswers, s.draws, s.seg, by simp [State.afterBus, State.setSeg], by simp⟩

theorem BusRun.toSeg {s t : State} (h : BusRun s t) : BusRunSeg s t := by
  obtain ⟨new, l, n, rfl, hn⟩ := h
  exact ⟨new, l, n, s.seg, rfl, hn⟩

theorem Flow.andThen_busRunSeg {f : Flow} {k : State → Flow} {s : State} (hf : f.All (BusRunSeg s))
    (hk : ∀ u, BusRunSeg s u → (k u).All (BusRunSeg u)) : (f.andThen k).All (BusRunSeg s) := by
  cases f with
  | going u => exact (hk u hf).imp fun t ht => BusRunSeg.trans hf ht
  | aborted u => exact hf
  | waiting => trivial

theorem BusRunSeg.configured {s t : State} (h : BusRunSeg s t) (hs : s.Configured) : t.Configured := by
  obtain ⟨new, l, n, v, rfl, -⟩ := h
  exact hs

/-- All a stream of a framed marker can do, with `SEG` idle afterwards. -/
theorem stream_busRun {s : State} (hs : s.Configured) {marker : Byte} (hm : marker = 0x00#8 ∨ marker = 0x40#8)
    (bytes : List Byte) : (stream marker bytes s).All fun t => ∃ u, BusRun s u ∧ t = u.setSeg none := by
  rw [stream_eq_cut hs]
  exact (busRun_of_plan (greedyCut_framed hs hm _ _ _)).mapState

theorem stream_busRunSeg {s : State} (hs : s.Configured) {marker : Byte} (hm : marker = 0x00#8 ∨ marker = 0x40#8)
    (bytes : List Byte) : (stream marker bytes s).All (BusRunSeg s) := by
  refine (stream_busRun hs hm bytes).imp ?_
  rintro t ⟨u, ⟨new, l, n, rfl, hn⟩, rfl⟩
  exact ⟨new, l, n, none, rfl, hn⟩

theorem streamGroups_busRunSeg {marker : Byte} (hm : marker = 0x00#8 ∨ marker = 0x40#8) (gs : List CommandGroup) :
    ∀ s : State, s.Configured → (streamGroups marker gs s).All (BusRunSeg s) := by
  induction gs with
  | nil => intro s _; exact BusRunSeg.refl s
  | cons g gs ih =>
    intro s hs
    exact Flow.andThen_busRunSeg (stream_busRunSeg hs hm g.bytes) fun _ hu => ih _ (hu.configured hs)

theorem transact_busRunSeg {s : State} (hs : s.Configured) (c : Byte) :
    (transact [0x00#8, c] s).All (BusRunSeg s) := by
  rw [← runPlan_singleton]
  exact (busRun_of_plan (by simpa using pair_framed hs c)).imp fun _ h => h.toSeg

theorem flushBody_busRunSeg {s : State} (hs : s.Configured) : (flushBody s).All (BusRunSeg s) :=
  Flow.andThen_busRunSeg (stream_busRunSeg hs (.inl rfl) _) fun _ hu => stream_busRunSeg (hu.configured hs) (.inr rfl) _

theorem bringUp_busRunSeg {s : State} (hs : s.Configured) : (bringUp s).All (BusRunSeg s) :=
  Flow.andThen_busRunSeg (streamGroups_busRunSeg (.inl rfl) _ s hs) fun _ hu =>
    Flow.andThen_busRunSeg (transact_busRunSeg (hu.configured hs) _) fun _ hv =>
      flushBody_busRunSeg (hv.configured (hu.configured hs))

theorem writePixel_cases {x y : Nat} {on : Bool} {s t : State} (h : writePixel x y on s = .next t) :
    ∃ k v, k < s.fbSize ∧ t = (s.setFb (s.fb.write k v)).respond false := by
  unfold writePixel at h
  simp only at h
  split at h
  · next hlt => exact ⟨_, _, hlt, by simpa [finish] using h.symm⟩
  · cases h

/-- All an operation can do, and that it does nothing in an illegal configuration (rules R76, R97). -/
theorem exec_next {i : Instr} {s t : State} (h : exec i s = .next t) : s.Configured ∧ ExecNext s i t := by
  cases i with
  | init width height addr =>
    by_cases hs : s.Configured
    · refine ⟨hs, ?_⟩
      rw [exec, execInit_eq hs] at h
      split at h
      · cases h
      · next hg =>
        rw [not_not] at hg
        split at h
        · rw [← show s.respond false = t by simpa using h]; exact .noop _
        · next hf =>
          rw [Bool.not_eq_true] at hf
          split at h
          · cases h
          · next hl =>
            rw [not_not] at hl
            split at h
            · have hall := bringUp_busRunSeg (s := s.afterAlloc width.toNat height.toNat addr) hs
              have hall2 : s.seg = none → (bringUp (s.afterAlloc width.toNat height.toNat addr)).All
                  (BusRun (s.afterAlloc width.toNat height.toNat addr)) := fun hseg => by
                rw [bringUp_afterAlloc hs hseg hg]
                exact busRun_of_plan (initPlan_framed hs _ _)
              cases hb : bringUp (s.afterAlloc width.toNat height.toNat addr) with
              | going u =>
                rw [hb] at h hall hall2
                rw [← show u.respond true = t by simpa using h]
                exact .initRuns _ _ _ u hf hl hg hall2 hall
              | aborted u =>
                rw [hb] at h hall hall2
                rw [← show u.respond true = t by simpa using h]
                exact .initRuns _ _ _ u hf hl hg hall2 hall
              | waiting => rw [hb] at h; cases h
            · rw [← show (s.afterAllocDraw.setAllocFail true).respond false = t by simpa using h]
              exact .initFails _ _ _ hf hl
    · rw [exec, execInit, configured_of_not hs] at h
      cases h
  | shutdown =>
    rw [exec, execShutdown] at h
    obtain ⟨hs, rfl | ⟨ha, h⟩⟩ := gated_cases h
    · exact ⟨hs, .noop _⟩
    · refine ⟨hs, ?_⟩
      obtain ⟨v, ⟨u, hu, rfl⟩, rfl⟩ :=
        Flow.finish_eq_next (stream_busRun (s := s.setLife .off) hs (.inl rfl) [0xAE#8]) h
      exact .shutdown u ha hu
  | setpx x y on =>
    rw [exec, execSetpx] at h
    obtain ⟨hs, rfl | ⟨ha, h⟩⟩ := gated_cases h
    · exact ⟨hs, .noop _⟩
    · refine ⟨hs, ?_⟩
      split at h
      · obtain ⟨k, v, hk, rfl⟩ := writePixel_cases h
        exact .setpx _ _ _ k v ha hk
      · rw [← show s.respond false = t by simpa [finish] using h]; exact .noop _
  | setrgb x y r g b =>
    rw [exec, execSetrgb] at h
    obtain ⟨hs, rfl | ⟨ha, h⟩⟩ := gated_cases h
    · exact ⟨hs, .noop _⟩
    · refine ⟨hs, ?_⟩
      split at h
      · obtain ⟨k, v, hk, rfl⟩ := writePixel_cases h
        exact .setrgb _ _ _ _ _ k v ha hk
      · rw [← show s.respond false = t by simpa [finish] using h]; exact .noop _
  | getpx x y =>
    rw [exec, execGetpx] at h
    obtain ⟨hs, rfl | ⟨ha, h⟩⟩ := gated_cases h
    · exact ⟨hs, .noop _⟩
    · refine ⟨hs, ?_⟩
      split at h
      · unfold readPixel at h
        split at h
        · rw [← show s.respond (s.pixel (coord x).toNat (coord y).toNat) = t by simpa [finish] using h]
          exact .read _ _ _ ha
        · cases h
      · rw [← show s.respond false = t by simpa [finish] using h]; exact .noop _
  | clear =>
    rw [exec, execClear] at h
    obtain ⟨hs, rfl | ⟨ha, h⟩⟩ := gated_cases h
    · exact ⟨hs, .noop _⟩
    · refine ⟨hs, ?_⟩
      rw [← show (s.setFb (s.fb.clearBelow s.fbSize)).respond false = t by simpa [finish] using h]
      exact .clear ha
  | flush =>
    rw [exec, execFlush] at h
    obtain ⟨hs, rfl | ⟨ha, h⟩⟩ := gated_cases h
    · exact ⟨hs, .noop _⟩
    · refine ⟨hs, ?_⟩
      rw [flushBody_eq hs] at h
      obtain ⟨v, ⟨u, hu, rfl⟩, rfl⟩ := Flow.finish_eq_next
        (busRun_of_plan (flushPlan_framed hs s.w.toNat s.h.toNat s.fbBytes)).mapState h
      exact .flush u ha hu
  | cmd c =>
    rw [exec, execCmd] at h
    obtain ⟨hs, rfl | ⟨ha, h⟩⟩ := gated_cases h
    · exact ⟨hs, .noop _⟩
    · refine ⟨hs, ?_⟩
      obtain ⟨v, ⟨u, hu, rfl⟩, rfl⟩ := Flow.finish_eq_next (stream_busRun hs (.inl rfl) [c]) h
      exact .cmd _ u ha hu
  | cmdlist payload =>
    rw [exec, execCmdlist] at h
    obtain ⟨hs, rfl | ⟨ha, h⟩⟩ := gated_cases h
    · exact ⟨hs, .noop _⟩
    · refine ⟨hs, ?_⟩
      obtain ⟨v, ⟨u, hu, rfl⟩, rfl⟩ := Flow.finish_eq_next (stream_busRun hs (.inl rfl) payload) h
      exact .cmdlist _ u ha hu

end Sys2Proof.Machine
end

