-- ==== Sys2Proof/Laws/PerInstr.lean ====
section
/-! SUPPORT. For every operation: its word belongs to its row of the opcode table (rules R46 to R52). -/

namespace Sys2Proof.Laws.Encoding

open Sys2Proof

/-- The operation of an instruction, without its operands. -/
def opcodeOf : Instr → Opcode
  | .init _ _ _ => .init
  | .shutdown => .shutdown
  | .setpx _ _ _ => .setpx
  | .setrgb _ _ _ _ _ => .setrgb
  | .getpx _ _ => .getpx
  | .clear => .clear
  | .flush => .flush
  | .cmd _ => .cmd
  | .cmdlist _ => .cmdlist

/-- The encoded word finds the row of its operation and belongs to it: every reserved bit is 0. -/
def Statement (i : Instr) : Prop :=
  ∃ r, findRow (opField (encodeWord i)) = some r ∧ r.opcode = opcodeOf i ∧ encodeWord i &&& r.mask = r.pattern

/-- Two words are equal when all their bits are. -/
theorem word_eq {n : Nat} {a b : BitVec n} (h : ∀ k, k < n → a.getLsbD k = b.getLsbD k) : a = b :=
  BitVec.eq_of_getLsbD_eq h

theorem init (width height : Field16) (addr : BusAddr) : Statement (.init width height addr) := by
  have h : encodeWord (.init width height addr) &&& 0xFFFF8000000000FF#64 = 1#64 :=
    word_eq fun k hk => by interval_cases k <;> simp [encodeWord, getLsbD_fieldAt, -BitVec.getLsbD_eq_getElem]
  have hop : opField (encodeWord (.init width height addr)) = 1#4 :=
    word_eq fun k hk => by
      interval_cases k <;> simp [getLsbD_opField, encodeWord, getLsbD_fieldAt, -BitVec.getLsbD_eq_getElem]
  exact ⟨⟨.init, 1#64, 0xFFFF8000000000FF#64⟩, by rw [hop]; rfl, rfl, h⟩

theorem shutdown : Statement .shutdown := ⟨_, rfl, rfl, rfl⟩

theorem setpx (x y : Field16) (on : Bool) : Statement (.setpx x y on) := by
  have h : encodeWord (.setpx x y on) &&& 0xFFFFFF00000000EF#64 = 3#64 :=
    word_eq fun k hk => by interval_cases k <;> simp [encodeWord, getLsbD_fieldAt, -BitVec.getLsbD_eq_getElem]
  have hop : opField (encodeWord (.setpx x y on)) = 3#4 :=
    word_eq fun k hk => by
      interval_cases k <;> simp [getLsbD_opField, encodeWord, getLsbD_fieldAt, -BitVec.getLsbD_eq_getElem]
  exact ⟨⟨.setpx, 3#64, 0xFFFFFF00000000EF#64⟩, by rw [hop]; rfl, rfl, h⟩

theorem setrgb (x y : Field16) (r g b : Byte) : Statement (.setrgb x y r g b) := by
  have h : encodeWord (.setrgb x y r g b) &&& 0x00000000000000FF#64 = 4#64 :=
    word_eq fun k hk => by interval_cases k <;> simp [encodeWord, getLsbD_fieldAt, -BitVec.getLsbD_eq_getElem]
  have hop : opField (encodeWord (.setrgb x y r g b)) = 4#4 :=
    word_eq fun k hk => by
      interval_cases k <;> simp [getLsbD_opField, encodeWord, getLsbD_fieldAt, -BitVec.getLsbD_eq_getElem]
  exact ⟨⟨.setrgb, 4#64, 0x00000000000000FF#64⟩, by rw [hop]; rfl, rfl, h⟩

theorem getpx (x y : Field16) : Statement (.getpx x y) := by
  have h : encodeWord (.getpx x y) &&& 0xFFFFFF00000000FF#64 = 5#64 :=
    word_eq fun k hk => by interval_cases k <;> simp [encodeWord, getLsbD_fieldAt, -BitVec.getLsbD_eq_getElem]
  have hop : opField (encodeWord (.getpx x y)) = 5#4 :=
    word_eq fun k hk => by
      interval_cases k <;> simp [getLsbD_opField, encodeWord, getLsbD_fieldAt, -BitVec.getLsbD_eq_getElem]
  exact ⟨⟨.getpx, 5#64, 0xFFFFFF00000000FF#64⟩, by rw [hop]; rfl, rfl, h⟩

theorem clear : Statement .clear := ⟨_, rfl, rfl, rfl⟩

theorem flush : Statement .flush := ⟨_, rfl, rfl, rfl⟩

theorem cmd (c : Byte) : Statement (.cmd c) := by
  have h : encodeWord (.cmd c) &&& 0xFFFFFFFFFFFF00FF#64 = 8#64 :=
    word_eq fun k hk => by interval_cases k <;> simp [encodeWord, getLsbD_fieldAt, -BitVec.getLsbD_eq_getElem]
  have hop : opField (encodeWord (.cmd c)) = 8#4 :=
    word_eq fun k hk => by
      interval_cases k <;> simp [getLsbD_opField, encodeWord, getLsbD_fieldAt, -BitVec.getLsbD_eq_getElem]
  exact ⟨⟨.cmd, 8#64, 0xFFFFFFFFFFFF00FF#64⟩, by rw [hop]; rfl, rfl, h⟩

theorem cmdlist (payload : List Byte) : Statement (.cmdlist payload) := by
  have h : encodeWord (.cmdlist payload) &&& 0xFFFFFFFFFF0000FF#64 = 9#64 :=
    word_eq fun k hk => by interval_cases k <;> simp [encodeWord, getLsbD_fieldAt, -BitVec.getLsbD_eq_getElem]
  have hop : opField (encodeWord (.cmdlist payload)) = 9#4 :=
    word_eq fun k hk => by
      interval_cases k <;> simp [getLsbD_opField, encodeWord, getLsbD_fieldAt, -BitVec.getLsbD_eq_getElem]
  exact ⟨⟨.cmdlist, 9#64, 0xFFFFFFFFFF0000FF#64⟩, by rw [hop]; rfl, rfl, h⟩

end Sys2Proof.Laws.Encoding
end

