-- ==== Sys2Proof/Laws/Step.lean ====
section
/-! SUPPORT. What a step can do, said once. -/

namespace Sys2Proof.Machine

open Sys2Proof

/-- A step on an operation word, by its conditions (rule R103). -/
theorem step_op {s : State} {w : OpWord} {following : List HostInput} (h : s.inputs = .op w :: following) :
    step s =
      if s.configBad = true then .refused (.badConfig w)
      else match decode w following with
        | .instr i rest => exec i (s.setInputs rest)
        | .illegalOp => .refused (.illegalOp w)
        | .reservedBits => .refused (.reservedBits w)
        | .awaitingPayload => .fault .awaitingPayload := by
  have hf : fetch s = fetchOp w following s := by unfold fetch; rw [h]
  unfold step
  rw [hf]
  unfold fetchOp
  cases s.configBad with
  | true => rfl
  | false =>
    simp only [Bool.false_eq_true, if_false]
    cases decode w following <;> rfl

/-- All a step can do when it answers a next state: wait, reset, or run the operation presented. -/
theorem step_next {s t : State} (h : step s = .next t) :
    (s.inputs = [] ∧ t = s) ∨
    (∃ rest, s.inputs = .reset :: rest ∧ t = (s.setInputs rest).resetEvent) ∨
    (∃ w following i rest, s.inputs = .op w :: following ∧ decode w following = .instr i rest ∧ s.Configured ∧
      exec i (s.setInputs rest) = .next t) := by
  cases hin : s.inputs with
  | nil =>
    left
    unfold step fetch at h
    rw [hin] at h
    exact ⟨rfl, by simpa using h.symm⟩
  | cons a rest =>
    right
    cases a with
    | reset =>
      left
      unfold step fetch at h
      rw [hin] at h
      exact ⟨rest, rfl, by simpa using h.symm⟩
    | payload b =>
      unfold step fetch at h
      rw [hin] at h
      cases h
    | op w =>
      right
      rw [step_op hin] at h
      cases hc : s.configBad with
      | true => rw [hc] at h; cases h
      | false =>
        rw [hc] at h
        cases hd : decode w rest with
        | instr i after => exact ⟨w, rest, i, after, rfl, hd, configBad_eq_false.1 hc, by simpa [hd] using h⟩
        | illegalOp => simp [hd] at h
        | reservedBits => simp [hd] at h
        | awaitingPayload => simp [hd] at h

end Sys2Proof.Machine
end

