-- ==== Sys2Proof/Tests/Slice0.lean ====
section
/-! SUPPORT. Tests: expected values from spec/95_test_vectors.md, and for every obligation with hypotheses a state and operands that meet them. -/

namespace Sys2Proof.Tests

open Sys2Proof Sys2Proof.Machine

/-! ### Helpers -/

/-- What a test asks of the next state; false where there is none. -/
def nextIs (r : Result) (p : State → Bool) : Bool :=
  match r with
  | .next t => p t
  | .fault _ => false
  | .refused _ => false

/-- Whether the outcome is this refusal. -/
def refusedAs (r : Result) (x : Refusal) : Bool :=
  match r with
  | .refused y => decide (y = x)
  | .next _ => false
  | .fault _ => false

/-- Whether the outcome is this fault. -/
def faultsAs (r : Result) (x : Fault) : Bool :=
  match r with
  | .fault y => decide (y = x)
  | .next _ => false
  | .refused _ => false

/-- An active `w` by `h` frame at address 0x3C with these bytes, and a transport that answers true `n` times. -/
def active (w h : BitVec 9) (fb : Memory) (n : Nat) : State :=
  { State.reset with
    life := .active, w := w, h := h, addr := 0x3C#7, fb := fb, busAnswers := List.replicate n (.answer true) }

/-- A state right after reset whose allocator answers `a`, with a transport that answers true `n` times. -/
def fresh (a : Bool) (n : Nat) : State :=
  { State.reset with allocAnswers := [a], busAnswers := List.replicate n (.answer true) }

/-- A state whose allocation failed. -/
def failed : State := { State.reset with allocFail := true }

/-- The parameters `M`, `CHUNK_ENABLE` and `ON_BUS_FAIL` of a state set. -/
def withParams (s : State) (m : Nat) (chunk : Bool) (onFail : OnBusFail) : State :=
  { s with params := { s.params with maxTxn := m, chunkEnable := chunk, onBusFail := onFail } }

/-- The bytes of the transactions of a state. -/
def sentBytes (s : State) : List (List Byte) := s.txns.map Txn.bytes

/-! ### Well-formedness -/

/-- The one ill-formed term: a CMDLIST of 65536 bytes, whose length its field cannot hold (rule R51). -/
theorem test_wellFormed_refuses_long_cmdlist : (Instr.cmdlist (List.replicate 65536 0#8)).wellFormed = false := by
  rw [Instr.wellFormed, List.length_replicate]
  rfl

theorem test_wellFormed_takes_longest_cmdlist : (Instr.cmdlist (List.replicate 65535 0#8)).wellFormed = true := by
  rw [Instr.wellFormed, List.length_replicate]
  rfl

/-! ### Encodings (V-ENC) -/

theorem test_decode_init : decode 0x00003C0040008001#64 [] = .instr (.init 128#16 64#16 0x3C#7) [] := by decide
theorem test_decode_shutdown : decode 0x0000000000000002#64 [] = .instr .shutdown [] := by decide
theorem test_decode_setpx : decode 0x0000000000FFFF13#64 [] = .instr (.setpx (BitVec.ofInt 16 (-1)) 0#16 true) [] := by
  decide
theorem test_decode_setrgb : decode 0x7F7F7F0003000304#64 [] = .instr (.setrgb 3#16 3#16 127#8 127#8 127#8) [] := by
  decide
theorem test_decode_getpx : decode 0x000000000D000505#64 [] = .instr (.getpx 5#16 13#16) [] := by decide
theorem test_decode_clear : decode 0x0000000000000006#64 [] = .instr .clear [] := by decide
theorem test_decode_flush : decode 0x0000000000000007#64 [] = .instr .flush [] := by decide
theorem test_decode_cmd : decode 0x000000000000AF08#64 [] = .instr (.cmd 0xAF#8) [] := by decide
theorem test_decode_cmdlist :
    decode 0x0000000000000509#64 [.payload 0x81#8, .payload 0x7F#8, .payload 0xD9#8, .payload 0xF1#8, .payload 0xDB#8,
      .op 6#64] = .instr (.cmdlist [0x81#8, 0x7F#8, 0xD9#8, 0xF1#8, 0xDB#8]) [.op 6#64] := by decide

/-- Channels of different values show a swap (rule R49: `b` in bits 63 to 56, `g` below it, then `r`). -/
theorem test_decode_setrgb_channels :
    decode 0x0302010000000004#64 [] = .instr (.setrgb 0#16 0#16 1#8 2#8 3#8) [] := by decide

/-- V-EXC: the words it lists with `RESERVED_BITS`. -/
theorem test_reserved_bits :
    [0x0000000000000012#64, 0x0000000000000016#64, 0x0000000100000007#64, 0x1000000000000003#64, 0x00000000000000E3#64,
      0x0000000000000015#64, 0x0000000000000014#64, 0x0000000000010008#64, 0x0000000001000009#64, 0x0000800000000001#64,
      0x00000000000000F1#64, 0x0000000008000711#64].all (fun w => decode w [] == .reservedBits) = true := by decide

/-- V-EXC: the words it lists with `ILLEGAL_OP`. -/
theorem test_illegal_op :
    [0x0#64, 0xA#64, 0xF#64, 0x10#64].all (fun w => decode w [] == .illegalOp) = true := by decide

/-! ### Assembler (rules R58, R59; V-ENC) -/

/-- `SETPX -1, 0, 1` with a comment. -/
theorem test_assemble_setpx :
    assemble ['S', 'E', 'T', 'P', 'X', ' ', '-', '1', ',', ' ', '0', ',', ' ', '1', ' ', ';', 'p', ','] =
      some (.setpx 0xFFFF#16 0#16 true) := by decide

/-- `CMDLIST [0x81, 127]`. -/
theorem test_assemble_cmdlist :
    assemble ['C', 'M', 'D', 'L', 'I', 'S', 'T', ' ', '[', '0', 'x', '8', '1', ',', ' ', '1', '2', '7', ']'] =
      some (.cmdlist [0x81#8, 0x7F#8]) := by decide

/-- `CMDLIST []`. -/
theorem test_assemble_empty_cmdlist :
    assemble ['C', 'M', 'D', 'L', 'I', 'S', 'T', ' ', '[', ']'] = some (.cmdlist []) := by decide

/-- `SETRGB 1, 2, 3, 4, 5`: the operands in the order of rule R58. -/
theorem test_assemble_setrgb :
    assemble ['S', 'E', 'T', 'R', 'G', 'B', ' ', '1', ',', ' ', '2', ',', ' ', '3', ',', ' ', '4', ',', ' ', '5'] =
      some (.setrgb 1#16 2#16 3#8 4#8 5#8) := by decide

/-- `CMD 256` is outside its field's range, `CLEAR 1` has an operand too many, and `GETPX 1` one too few. -/
theorem test_assemble_refuses :
    assemble ['C', 'M', 'D', ' ', '2', '5', '6'] = none ∧ assemble ['C', 'L', 'E', 'A', 'R', ' ', '1'] = none ∧
      assemble ['G', 'E', 'T', 'P', 'X', ' ', '1'] = none ∧ assemble ['C', 'M', 'D', ' ', '1', ','] = none := by decide

/-- `CLRPX 3, 2` is `0x0000000002000303`, and `DISPON` is `0x000000000000AF08`. -/
theorem test_assemble_pseudo :
    (assemble ['C', 'L', 'R', 'P', 'X', ' ', '3', ',', '2']).map encodeWord = some 0x0000000002000303#64 ∧
      (assemble ['D', 'I', 'S', 'P', 'O', 'N']).map encodeWord = some 0x000000000000AF08#64 := by decide

/-! ### Operands (V-MAP, V-MONO, V-STR) -/

/-- V-MAP. -/
theorem test_pixel_map :
    [(0, 0), (0, 7), (0, 8), (127, 0), (5, 13), (64, 32), (0, 63), (127, 63)].map
        (fun p => (pixelIndex 128 p.1 p.2, pixelBit p.2)) =
      [(0, 0), (0, 7), (128, 0), (127, 0), (133, 5), (576, 0), (896, 7), (1023, 7)] := by decide

/-- V-MONO: SUM_GT, OR_GT and C_PREC of eight colours. -/
theorem test_mono :
    ([(0, 0, 0), (255, 255, 255), (64, 64, 0), (0, 1, 0), (0, 0, 127), (0, 0, 128), (42, 42, 43), (42, 43, 43)].map
      fun (c : Byte × Byte × Byte) =>
        (mono .sumGt c.1 c.2.1 c.2.2, mono .orGt c.1 c.2.1 c.2.2, mono .cPrec c.1 c.2.1 c.2.2)) =
      [(false, false, false), (true, true, true), (true, false, true), (false, false, true), (false, false, false),
        (true, true, true), (false, false, true), (true, false, true)] := by decide

/-- V-STR: `K` for eight pairs `(M, L)`. -/
theorem test_chunk_counts :
    ([(2, 6), (3, 0), (4, 6), (7, 6), (32, 31), (32, 32), (32, 1024), (255, 8192)].map fun p : Nat × Nat =>
      chunkCount { Params.standard with maxTxn := p.1 } p.2) = [6, 0, 2, 1, 1, 2, 34, 33] := by decide

/-! ### One step per instruction -/

/-- FS1. -/
theorem test_setpx_sets : nextIs (exec (.setpx 5#16 13#16 true) (active 128 64 [] 0)) (fun t =>
    t.fb == [(133, 0x20#8)] && t.txns == []) = true := by decide

/-- FS6: the other 7 bits are kept. -/
theorem test_setpx_clears : nextIs (exec (.setpx 2#16 0#16 false) (active 8 16 [(2, 0xA7#8)] 0)) (fun t =>
    t.fb == [(2, 0xA6#8)]) = true := by decide

/-- FS13. -/
theorem test_setrgb_sets : nextIs (exec (.setrgb 2#16 3#16 200#8 0#8 0#8) (active 8 8 [] 0)) (fun t =>
    t.fb == [(2, 0x08#8)]) = true := by decide

/-- FS14. -/
theorem test_setrgb_clips : nextIs (exec (.setrgb 9#16 0#16 255#8 255#8 255#8) (active 8 8 [] 0)) (fun t =>
    t.fb == [] && t.results == [false]) = true := by decide

/-- FS8. -/
theorem test_getpx_reads : nextIs (exec (.getpx 2#16 1#16) (active 8 16 [(2, 0xA6#8)] 0)) (fun t =>
    t.results == [true]) = true := by decide

/-- FS9: `x = -1`. -/
theorem test_getpx_clips : nextIs (exec (.getpx 0xFFFF#16 0#16) (active 8 16 [(0, 0xFF#8)] 0)) (fun t =>
    t.results == [false]) = true := by decide

/-- FS10. -/
theorem test_clear : nextIs (exec .clear (active 8 8 [(0, 0xFF#8), (7, 0x01#8)] 0)) (fun t =>
    t.fb == [] && t.txns == []) = true := by decide

/-- CM8: the third transaction fails under ABORT_OP. -/
theorem test_flush_aborts :
    nextIs (exec .flush { withParams (active 8 8 [] 0) 4 true .abortOp with
      busAnswers := [.answer true, .answer true, .answer false] }) (fun t =>
      t.txns == [⟨0x3C#7, [0x00#8, 0x21#8, 0x00#8, 0x07#8], true⟩, ⟨0x3C#7, [0x00#8, 0x22#8, 0x00#8, 0x00#8], true⟩,
        ⟨0x3C#7, [0x40#8, 0x00#8, 0x00#8, 0x00#8], false⟩]) = true := by decide

/-- CM9: the same under CONTINUE. -/
theorem test_flush_continues :
    nextIs (exec .flush { withParams (active 8 8 [] 0) 4 true .keepGoing with
      busAnswers := [.answer true, .answer true, .answer false, .answer true, .answer true] }) (fun t =>
      sentBytes t == [[0x00#8, 0x21#8, 0x00#8, 0x07#8], [0x00#8, 0x22#8, 0x00#8, 0x00#8],
        [0x40#8, 0x00#8, 0x00#8, 0x00#8], [0x40#8, 0x00#8, 0x00#8, 0x00#8], [0x40#8, 0x00#8, 0x00#8]]) = true := by
  decide

/-- CM1. -/
theorem test_cmd : nextIs (exec (.cmd 0xA7#8) (active 8 8 [] 1)) (fun t =>
    t.txns == [⟨0x3C#7, [0x00#8, 0xA7#8], true⟩]) = true := by decide

/-- LC17: `LIFE` stays ACTIVE; `SEG` ends idle (rule R26). -/
theorem test_cmd_keeps_life :
    nextIs (exec (.cmd 0xAE#8) (active 8 8 [] 1)) (fun t => t.life == .active && t.seg == none) = true := by decide

/-- CM3. -/
theorem test_cmdlist_chunks :
    nextIs (exec (.cmdlist [0x81#8, 0x7F#8, 0xD9#8, 0xF1#8, 0xDB#8]) (withParams (active 8 8 [] 3) 3 true .keepGoing))
      (fun t => sentBytes t == [[0x00#8, 0x81#8, 0x7F#8], [0x00#8, 0xD9#8, 0xF1#8], [0x00#8, 0xDB#8]]) = true := by
  decide

/-- CM10: unchunked, `M = 1`. -/
theorem test_cmdlist_unchunked :
    nextIs (exec (.cmdlist [1#8, 2#8, 3#8]) (withParams (active 16 8 [] 1) 1 false .keepGoing)) (fun t =>
      sentBytes t == [[0x00#8, 0x01#8, 0x02#8, 0x03#8]]) = true := by decide

/-- LC11. -/
theorem test_shutdown : nextIs (exec .shutdown (active 8 8 [(0, 1#8)] 1)) (fun t =>
    t.life == .off && sentBytes t == [[0x00#8, 0xAE#8]] && t.fb == [(0, 1#8)]) = true := by decide

/-- LC14. -/
theorem test_init_aborts :
    nextIs (exec (.init 128#16 64#16 0x3C#7) { withParams (fresh true 0) 32 true .abortOp with
      busAnswers := [.answer false] }) (fun t =>
      t.results == [true] && t.txns == [⟨0x3C#7, [0x00#8, 0xD5#8, 0x80#8], false⟩] && t.life == .active &&
        t.fb == [] && t.w == 128#9 && t.h == 64#9) = true := by decide

/-- LC2: 18 transactions. -/
theorem test_init_runs : nextIs (exec (.init 1#16 8#16 0x3C#7) (fresh true 18)) (fun t =>
    t.results == [true] && t.life == .active && t.txns.length == 18 &&
      (sentBytes t).drop 15 == [[0x00#8, 0xAF#8], [0x00#8, 0x21#8, 0x00#8, 0x00#8, 0x22#8, 0x00#8, 0x00#8],
        [0x40#8, 0x00#8]]) = true := by decide

/-! ### The step -/

/-- CM12: a no-op CMDLIST takes its payload byte. -/
theorem test_step_noop_takes_payload :
    nextIs (step { State.reset with inputs := [.op 0x109#64, .payload 1#8, .op 6#64] }) (fun t =>
      t.inputs == [.op 6#64] && t.txns == []) = true := by decide

/-- V-EXC: `0xF` with `M = 1` is `BAD_CONFIG`. -/
theorem test_step_bad_config_first :
    refusedAs (step { withParams (active 8 8 [] 0) 1 true .keepGoing with inputs := [.op 0xF#64] })
      (.badConfig 0xF#64) = true := by decide

/-- V-EXC: INIT `0, 8` after an allocation failure is `BAD_GEOMETRY`. -/
theorem test_step_geometry_before_noop :
    refusedAs (step { failed with inputs := [.op 0x0000000008000001#64] })
      (.badGeometry 0x0000000008000001#64) = true := by decide

/-- LC10. -/
theorem test_step_reinit :
    refusedAs (step { active 8 8 [] 0 with inputs := [.op 0x00003D0008000801#64] })
      (.reinit 0x00003D0008000801#64) = true := by decide

/-- RS1. -/
theorem test_step_reset :
    nextIs (step { active 8 8 [(0, 1#8)] 0 with life := .off, inputs := [.reset] }) (fun t =>
      t.life == .uninit && t.fb == [] && t.txns == [] && t.allocFail == false) = true := by decide

/-- A reset after one of two payload bytes: stuck (rule R100 item 1; log entry 26). -/
theorem test_step_reset_before_payload :
    faultsAs (step { active 8 8 [] 0 with inputs := [.op 0x209#64, .payload 1#8, .reset] })
      .awaitingPayload = true := by decide

/-- Rule R113: a payload byte where a word is due. -/
theorem test_step_stray_payload :
    faultsAs (step { State.reset with inputs := [.payload 1#8] }) .strayPayload = true := by decide

/-! ### What the host evaluates -/

theorem test_decodeTableWord : decodeTableWord 64 0x000000000D000513 = some (.setpx 5#16 13#16 true) := by decide

theorem test_decodeTableWord_refuses : decodeTableWord 64 0x12 = none := by decide

/-- RS3, as the host places it: the first instruction after reset runs. -/
theorem test_withFetchWord : nextIs (step (State.reset.withFetchWord 64 7)) (fun t =>
    t.inputs == [] && t.results == [false]) = true := by decide

/-! ### Witnesses: a state and operands that meet an obligation's hypotheses together

`test_meets_<Obligation>` for each; a suffix names the clause. -/

/-- An active 8 by 8 frame with one byte lit, met by most hypotheses on a state. -/
def sample (n : Nat) : State := active 8 8 [(2, 0xA5#8)] n

/-- The same with an operation word presented. -/
def presented (w : OpWord) : State := { sample 0 with inputs := [.op w] }

theorem test_meets_DecodeReadsBackEveryEncodedOperation :
    (Instr.setpx 0x8000#16 0xFFFF#16 true).wellFormed = true ∧ (Instr.cmdlist [0xFF#8]).wellFormed = true := by decide

theorem test_meets_DecodeReadsBackEveryEncodedOperation_longest :
    (Instr.cmdlist (List.replicate 65535 0xFF#8)).wellFormed = true := by
  rw [Instr.wellFormed, List.length_replicate]
  rfl

theorem test_meets_EveryAcceptedWordEncodesBack :
    decode 0x109#64 [.payload 7#8, .reset] = .instr (.cmdlist [7#8]) [.reset] := by decide

theorem test_meets_OpcodeRowsAreDisjoint :
    (0x13#64 : OpWord) &&& 0xFFFFFF00000000EF#64 = 0x3#64 ∧ opcodeTable[2]? =
      some ⟨.setpx, 0x3#64, 0xFFFFFF00000000EF#64⟩ := by decide

/-- An illegal `op` at each end of its ranges, and a legal one. -/
theorem test_meets_IllegalOpcodesAreRefused :
    ∀ p ∈ [0x0#64, 0xA#64, 0xF#64, 0x7#64].map (fun w => (w, presented w)),
      p.2.Configured ∧ p.2.inputs = .op p.1 :: [] := by decide

/-- A reserved bit set, and none, for the first and the last legal `op`. -/
theorem test_meets_ReservedBitsAreRefused :
    ∀ p ∈ [0x0000800000000001#64, 0x1#64, 0x0000000001000009#64, 0x9#64].map (fun w => (w, presented w)),
      p.2.Configured ∧ p.2.inputs = .op p.1 :: [] ∧ 1 ≤ (opField p.1).toNat ∧ (opField p.1).toNat ≤ 9 := by decide

/-- `INIT 128, 64, 0x3C`. -/
theorem test_meets_AssembledOperationsAreWellFormed :
    assemble ['I', 'N', 'I', 'T', ' ', '1', '2', '8', ',', ' ', '6', '4', ',', ' ', '0', 'x', '3', 'C'] =
      some (.init 128#16 64#16 0x3C#7) := by decide

/-- Operands at the ends of their fields' ranges, and one past each. -/
theorem test_meets_AssembledOperationsAreWellFormed_numbers :
    Spells ['6', '5', '5', '3', '5'] 65535 ∧ Spells ['6', '5', '5', '3', '6'] 65536 ∧
      Spells ['0', 'x', '7', 'F'] 0x7F ∧ Spells ['0', 'x', '0', '8', '0'] 0x80 ∧
      Spells ['2', '5', '5'] 255 ∧ Spells ['2', '5', '6'] 256 ∧ Spells ['1'] 1 ∧ Spells ['2'] 2 :=
  ⟨⟨0, .inl (by decide)⟩, ⟨0, .inl (by decide)⟩, ⟨0, .inr ⟨['7', 'F'], rfl, by decide⟩⟩,
    ⟨1, .inr ⟨['0', '8', '0'], rfl, by decide⟩⟩,
    ⟨0, .inl (by decide)⟩, ⟨0, .inl (by decide)⟩, ⟨0, .inl (by decide)⟩, ⟨0, .inl (by decide)⟩⟩

theorem test_meets_AssembledOperationsAreWellFormed_coordinates :
    SpellsInt ['-', '3', '2', '7', '6', '8'] (-32768) ∧ SpellsInt ['-', '3', '2', '7', '6', '9'] (-32769) ∧
      SpellsInt ['+', '3', '2', '7', '6', '7'] 32767 ∧ SpellsInt ['3', '2', '7', '6', '8'] 32768 :=
  ⟨.inr ⟨32768, 0, rfl, by decide⟩, .inr ⟨32769, 0, rfl, by decide⟩, .inl ⟨32767, rfl, .inr ⟨0, by decide⟩⟩,
    .inl ⟨32768, rfl, .inl ⟨0, .inl (by decide)⟩⟩⟩

theorem test_meets_AssembledOperationsAreWellFormed_bytes :
    List.Forall₂ Spells [['2', '5', '5'], ['2', '5', '6']] [255, 256] ∧ List.Forall₂ Spells [] [] :=
  ⟨.cons ⟨0, .inl (by decide)⟩ (.cons ⟨0, .inl (by decide)⟩ .nil), .nil⟩

theorem test_meets_AssembledOperationsAreWellFormed_comment : ';' ∉ ['C', 'L', 'E', 'A', 'R', ' '] := by decide

theorem test_meets_PseudoOperationsExpand :
    (sample 1).allocFail = false ∧ (sample 1).life = .active ∧
      nextIs (exec (.cmd 0xAF#8) (sample 1)) (fun _ => true) = true ∧
      nextIs (exec (.cmd 0xAE#8) (sample 1)) (fun t => t.life == .active) = true ∧
      nextIs (exec .shutdown (sample 1)) (fun t => t.life == .off) = true := by decide

theorem test_meets_PseudoOperationsExpand_sends :
    (sample 1).Configured ∧ (sample 1).Allocated ∧ (sample 1).AnswersFirst 1 := by decide

/-- A coordinate in range and one out of range. -/
theorem test_meets_PseudoOperationsExpand_text :
    SpellsInt ['3'] 3 ∧ SpellsInt ['-', '4', '0', '0', '0', '0'] (-40000) :=
  ⟨.inl ⟨3, rfl, .inl ⟨0, .inl (by decide)⟩⟩, .inr ⟨40000, 0, rfl, by decide⟩⟩

theorem test_meets_StepRunsTheDecodedOperation :
    (presented 0x6#64).inputs = .op 0x6#64 :: [] ∧ decode 0x6#64 [] = .instr .clear [] := by decide

theorem test_meets_StepChecksConfigurationBeforeDecoding_badConfig :
    (withParams (presented 0xF#64) 1 true .keepGoing).inputs = .op 0xF#64 :: [] ∧
      ¬(withParams (presented 0xF#64) 1 true .keepGoing).Configured := by decide

theorem test_meets_StepChecksConfigurationBeforeDecoding_illegalOp :
    (presented 0xF#64).inputs = .op 0xF#64 :: [] ∧ (presented 0xF#64).Configured ∧
      decode 0xF#64 [] = .illegalOp := by decide

theorem test_meets_StepChecksConfigurationBeforeDecoding_reservedBits :
    (presented 0x12#64).inputs = .op 0x12#64 :: [] ∧ (presented 0x12#64).Configured ∧
      decode 0x12#64 [] = .reservedBits := by decide

theorem test_meets_StepChecksConfigurationBeforeDecoding_awaitingPayload :
    (presented 0x109#64).inputs = .op 0x109#64 :: [] ∧ (presented 0x109#64).Configured ∧
      decode 0x109#64 [] = .awaitingPayload := by decide

/-- One byte of two has arrived, and then a reset (log entry 26). -/
theorem test_meets_UnfinishedPayloadIsStuck :
    let s := { sample 0 with inputs := [.op 0x209#64, .payload 0x81#8, .reset] }
    s.Configured ∧ [0x81#8].length < (2#16).toNat ∧ ([HostInput.reset].head? ≠ some (.payload 0#8)) ∧
      s.inputs = .op ((2#16).setWidth 64 <<< 8 ||| 9#64) :: ([0x81#8].map .payload ++ [.reset]) := by decide

/-- No byte of any value stands at the head of an empty tail. -/
theorem test_meets_UnfinishedPayloadIsStuck_tail :
    ∀ b : Byte, ([] : List HostInput).head? ≠ some (.payload b) ∧ [HostInput.reset].head? ≠ some (.payload b) := by
  intro b
  simp

theorem test_meets_StepWaitsForTheHost : (sample 0).Ended := by decide

theorem test_meets_ResetRestoresTheResetValues :
    { sample 0 with inputs := [.reset] }.inputs = .reset :: [] := by decide

/-- The two corners of the frame. -/
theorem test_meets_SetpxWritesExactlyItsPixel :
    (sample 0).Configured ∧ (sample 0).Inv ∧ (sample 0).Allocated ∧
      (sample 0).Holds (0#16).toInt (0#16).toInt ∧ (sample 0).Holds (7#16).toInt (7#16).toInt := by decide

theorem test_meets_SetpxWritesItsByte :
    (active 256 256 [] 0).Configured ∧ (active 256 256 [] 0).Inv ∧ (active 256 256 [] 0).Allocated ∧
      (active 256 256 [] 0).Holds (255#16).toInt (255#16).toInt := by decide

theorem test_meets_ClippedPixelOperationsChangeNothing_setpx :
    (sample 0).Configured ∧ ¬(sample 0).Holds (8#16).toInt (0#16).toInt ∧
      ¬(sample 0).Holds (0#16).toInt (8#16).toInt := by decide

theorem test_meets_ClippedPixelOperationsChangeNothing_setrgb :
    (sample 0).Configured ∧ ¬(sample 0).Holds (0xFFFF#16).toInt (0#16).toInt ∧
      ¬(sample 0).Holds (0#16).toInt (0x8000#16).toInt := by decide

theorem test_meets_ClippedPixelOperationsChangeNothing_getpx :
    exec (.getpx 2#16 0#16) (sample 0) = .next ((sample 0).respond true) := rfl

theorem test_meets_SetrgbActsAsSetpxOfMono :
    (sample 0).Configured ∧ (sample 0).Inv ∧ (sample 0).Allocated ∧
      (sample 0).Holds (7#16).toInt (0#16).toInt := by decide

theorem test_meets_GetpxAnswersItsPixel :
    (sample 0).Configured ∧ (sample 0).Inv ∧ (sample 0).Allocated ∧
      (sample 0).Holds (2#16).toInt (7#16).toInt := by decide

/-- Out of range, before INIT, and after an allocation failure. -/
theorem test_meets_GetpxAnswersZeroElsewhere :
    (∀ s ∈ [State.reset, failed], s.Configured ∧ ¬(s.Allocated ∧ s.Holds (0#16).toInt (0#16).toInt)) ∧
      (sample 0).Configured ∧ ¬((sample 0).Allocated ∧ (sample 0).Holds (8#16).toInt (7#16).toInt) := by decide

theorem test_meets_ClearTurnsEveryPixelOff :
    ∀ s ∈ [sample 0, State.reset, failed], s.Configured ∧ s.Inv := by decide

theorem test_meets_LayoutIsABijection : 0 < 128 ∧ 127 < 128 ∧ 63 < 8 * 8 ∧ 1023 < 128 * 8 ∧ 7 < 8 := by decide

/-- The pixel off, and on. -/
theorem test_meets_SetThenClearUndoes :
    (sample 0).Configured ∧ (sample 0).Inv ∧ (sample 0).Allocated ∧
      (sample 0).Holds (2#16).toInt (1#16).toInt ∧ (sample 0).pixel 2 1 = false ∧
      (sample 0).Holds (2#16).toInt (0#16).toInt ∧ (sample 0).pixel 2 0 = true := by decide

theorem test_meets_FrameStoreOperationsEmitNothing : (sample 0).Configured ∧ (sample 0).Inv := by decide

theorem test_meets_GateMakesOperationsNoops_operation :
    (failed.Configured ∧ failed.allocFail = true) ∧ (State.reset.Configured ∧ State.reset.life = .uninit) ∧
      ∀ w h a, Instr.clear ≠ .init w h a := by
  refine ⟨by decide, by decide, ?_⟩
  intro w h a
  simp

theorem test_meets_GateMakesOperationsNoops_payload :
    let s := { failed with inputs := [.op 0x109#64, .payload 7#8] }
    s.Configured ∧ s.allocFail = true ∧ [7#8].length ≤ 65535 ∧ s.inputs = encode (.cmdlist [7#8]) ++ [] := by decide

theorem test_meets_InitIsNoopAfterAllocationFailure :
    failed.Configured ∧ failed.allocFail = true ∧ LegalGeometry (256#16).toNat (8#16).toNat := by decide

/-- A scripted answer, and none. -/
theorem test_meets_CmdSendsOneTransaction :
    ∀ n ∈ [0, 1], (sample n).Configured ∧ (sample n).Allocated ∧ (sample n).AnswersFirst 1 := by decide

/-- `SEG` idle, and not. -/
theorem test_meets_CmdMatchesOneByteCmdlist :
    ∀ v ∈ [none, some (⟨0x40#8, 1#16, 2#16⟩ : Seg)], ((sample 1).setSeg v).Configured ∧
      ((sample 1).setSeg v).Allocated := by decide

theorem test_meets_CmdlistSendsItsChunks :
    let s := withParams (sample 2) 2 true .abortOp
    s.Configured ∧ s.Allocated ∧ [1#8, 2#8].length ≤ 65535 ∧
      s.AnswersFirst (chunkPlan s.params 0x00#8 [1#8, 2#8]).length := by decide

theorem test_meets_FlushSendsWindowThenFrame :
    (sample 2).Configured ∧ (sample 2).Allocated ∧
      (sample 2).AnswersFirst (flushPlan (sample 2).params (sample 2).w.toNat (sample 2).h.toNat
        ((List.range ((sample 2).w.toNat * (sample 2).h.toNat / 8)).map (sample 2).fb.read)).length := by decide

theorem test_meets_WindowNumbersFitTheirBytes :
    LegalGeometry (active 256 256 [] 0).w.toNat (active 256 256 [] 0).h.toNat ∧
      LegalGeometry (active 1 8 [] 0).w.toNat (active 1 8 [] 0).h.toNat := by decide

/-- Two chunks of one byte, and no chunk of an empty list. -/
theorem test_meets_StreamCutsIntoChunks :
    let s := withParams (sample 2) 2 true .abortOp
    s.Configured ∧ 1 = (if s.params.chunkEnable = true then s.params.maxTxn - 1 else max [1#8, 2#8].length 1) ∧
      [1#8, 2#8].length ≤ 65535 ∧ 2 = ([1#8, 2#8].length + 1 - 1) / 1 ∧ s.AnswersFirst 2 ∧ s.RunsToEnd 2 ∧
      0 = (([] : List Byte).length + 1 - 1) / 1 ∧ s.AnswersFirst 0 ∧ s.RunsToEnd 0 := by decide

/-- Without chunking `P` is the length. -/
theorem test_meets_StreamCutsIntoChunks_unchunked :
    let s := withParams (sample 1) 0 false .keepGoing
    s.Configured ∧ 2 = (if s.params.chunkEnable = true then s.params.maxTxn - 1 else max [1#8, 2#8].length 1) ∧
      [1#8, 2#8].length ≤ 65535 ∧ 1 = ([1#8, 2#8].length + 2 - 1) / 2 ∧ s.AnswersFirst 1 ∧ s.RunsToEnd 1 := by decide

theorem test_meets_StreamRebuildsItsBytes_going :
    let s := withParams (sample 2) 2 true .keepGoing
    s.Configured ∧ 1 = (if s.params.chunkEnable = true then s.params.maxTxn - 1 else max [1#8, 2#8].length 1) ∧
      [1#8, 2#8].length ≤ 65535 ∧ stream 0x00#8 [1#8, 2#8] s = .going
        { s with txns := [⟨0x3C#7, [0#8, 1#8], true⟩, ⟨0x3C#7, [0#8, 2#8], true⟩], busAnswers := [] } := by decide

theorem test_meets_StreamRebuildsItsBytes_aborted :
    let s := { withParams (sample 0) 2 true .abortOp with busAnswers := [.answer false] }
    s.Configured ∧ 1 = (if s.params.chunkEnable = true then s.params.maxTxn - 1 else max [1#8, 2#8].length 1) ∧
      [1#8, 2#8].length ≤ 65535 ∧
      stream 0x00#8 [1#8, 2#8] s = .aborted { s with txns := [⟨0x3C#7, [0#8, 1#8], false⟩], busAnswers := [] } := by
  decide

theorem test_meets_FlushTransactionCount_chunked :
    let s := withParams (sample 14) 2 true .abortOp
    s.Configured ∧ s.Inv ∧ s.Allocated ∧
      14 = (if s.params.chunkEnable = true
        then (6 + (s.params.maxTxn - 1) - 1) / (s.params.maxTxn - 1) +
          (s.w.toNat * s.h.toNat / 8 + (s.params.maxTxn - 1) - 1) / (s.params.maxTxn - 1)
        else 2) ∧ s.AnswersFirst 14 ∧ s.RunsToEnd 14 := by decide

theorem test_meets_FlushTransactionCount_unchunked :
    let s := withParams (sample 2) 0 false .abortOp
    s.Configured ∧ s.Inv ∧ s.Allocated ∧
      2 = (if s.params.chunkEnable = true
        then (6 + (s.params.maxTxn - 1) - 1) / (s.params.maxTxn - 1) +
          (s.w.toNat * s.h.toNat / 8 + (s.params.maxTxn - 1) - 1) / (s.params.maxTxn - 1)
        else 2) ∧ s.AnswersFirst 2 ∧ s.RunsToEnd 2 := by decide

/-- 128 by 64 with `M = 32`: 35 transactions. -/
theorem test_meets_FlushTransactionCount_largest :
    let s := active 128 64 [] 0
    s.Configured ∧ s.Inv ∧ s.Allocated ∧ s.w = 128#9 ∧ s.h = 64#9 ∧ s.params.maxTxn = 32 ∧
      s.params.chunkEnable = true ∧
      35 = (if s.params.chunkEnable = true
        then (6 + (s.params.maxTxn - 1) - 1) / (s.params.maxTxn - 1) +
          (s.w.toNat * s.h.toNat / 8 + (s.params.maxTxn - 1) - 1) / (s.params.maxTxn - 1)
        else 2) ∧ s.AnswersFirst 35 ∧ s.RunsToEnd 35 := by decide

theorem test_meets_UnchunkedStreamIsOneTransaction_true :
    let s := withParams (sample 1) 0 false .abortOp
    s.params.chunkEnable = false ∧ [1#8] ≠ [] ∧ [1#8].length ≤ 65535 ∧ s.AnswersFirst 1 ∧ s.RunsToEnd 1 := by decide

theorem test_meets_UnchunkedStreamIsOneTransaction_false :
    let s := { withParams (sample 0) 0 false .abortOp with busAnswers := [.answer false] }
    s.params.chunkEnable = false ∧ [1#8] ≠ [] ∧ [1#8].length ≤ 65535 ∧ s.AnswersFirst 1 ∧ ¬s.RunsToEnd 1 := by decide

theorem test_meets_BusFailurePolicy_continue :
    let s := withParams (sample 2) 2 true .keepGoing
    s.Configured ∧ s.Allocated ∧ s.AnswersFirst (chunkPlan s.params 0x00#8 [1#8, 2#8]).length ∧
      [1#8, 2#8].length ≤ 65535 ∧ s.params.onBusFail = .keepGoing := by decide

/-- ABORT_OP with every answer true, on FLUSH's plan. -/
theorem test_meets_BusFailurePolicy_allTrue :
    let s := withParams (sample 2) 32 true .abortOp
    s.Configured ∧ s.Allocated ∧ s.params.onBusFail = .abortOp ∧
      (flushPlan s.params s.w.toNat s.h.toNat s.fbBytes).length = 2 ∧ s.AnswersFirst 2 ∧
      ∀ j, j < 2 → s.reply j = true := by decide

/-- ABORT_OP with the second of two answers false. -/
theorem test_meets_BusFailurePolicy_secondFails :
    let s := { withParams (sample 0) 2 true .abortOp with busAnswers := [.answer true, .answer false] }
    s.Configured ∧ s.Allocated ∧ s.params.onBusFail = .abortOp ∧
      s.AnswersFirst (chunkPlan s.params 0x00#8 [1#8, 2#8]).length ∧
      [1#8, 2#8].length ≤ 65535 ∧ 1 < (chunkPlan s.params 0x00#8 [1#8, 2#8]).length ∧ s.reply 1 = false ∧
      ∀ j, j < 1 → s.reply j = true := by decide

/-- Silence at the first transaction. -/
theorem test_meets_SilentTransportIsStuck_first :
    let s := { sample 0 with busAnswers := [.never] }
    s.Configured ∧ s.Allocated ∧ s.busAnswers = .never :: [] ∧ [1#8] ≠ [] ∧ [1#8].length ≤ 65535 := by decide

theorem test_meets_SilentTransportIsStuck_firstOfInit :
    let s := { fresh true 0 with busAnswers := [.never] }
    s.Configured ∧ s.busAnswers = .never :: [] ∧ s.Performs (.init 8#16 8#16 0x3C#7) := by
  unfold State.Performs
  decide

/-- Silence at the second transaction of CMDLIST and of FLUSH, the first having failed under CONTINUE. -/
theorem test_meets_SilentTransportIsStuck_second :
    let s := { withParams (sample 0) 2 true .keepGoing with busAnswers := [.answer false, .never] }
    s.Configured ∧ s.Performs (.cmdlist [1#8, 2#8]) ∧ s.Performs .flush ∧
      1 < (s.plan (.cmdlist [1#8, 2#8])).length ∧ 1 < (s.plan .flush).length ∧
      s.busAnswers[1]? = some .never ∧ s.AnswersFirst 1 ∧ s.RunsToEnd 1 := by
  unfold State.Performs
  decide

/-- Silence at the last transaction of an INIT under ABORT_OP, every one before it having succeeded. -/
theorem test_meets_SilentTransportIsStuck_lastOfInit :
    let s := { withParams (fresh true 0) 32 true .abortOp with
      busAnswers := List.replicate 17 (BusAnswer.answer true) ++ [BusAnswer.never] }
    s.Configured ∧ s.Performs (.init 1#16 8#16 0x3C#7) ∧ 17 < (s.plan (.init 1#16 8#16 0x3C#7)).length ∧
      s.busAnswers[17]? = some .never ∧ s.AnswersFirst 17 ∧ s.RunsToEnd 17 := by
  unfold State.Performs
  decide

/-- From ACTIVE and from OFF. -/
theorem test_meets_ShutdownTurnsTheDisplayOff :
    ∀ l ∈ [Life.active, Life.off], ((sample 1).setLife l).Configured ∧ ((sample 1).setLife l).Allocated ∧
      ((sample 1).setLife l).AnswersFirst 1 := by decide

theorem test_meets_InitBringsTheDisplayUp :
    let s := fresh true 18
    s.Configured ∧ s.Inv ∧ s.allocFail = false ∧ s.life = .uninit ∧ LegalGeometry (8#16).toNat (8#16).toNat ∧
      s.allocReply = true ∧ (8#16).toNat * (8#16).toNat / 8 ≤ s.params.fbBytesMax ∧
      (s.afterAlloc (8#16).toNat (8#16).toNat 0x3C#7).AnswersFirst
        (initPlan s.params (8#16).toNat (8#16).toNat).length := by decide

theorem test_meets_AllocationFailureMakesNoops_answer :
    let s := fresh false 0
    s.Configured ∧ s.allocFail = false ∧ s.life = .uninit ∧ LegalGeometry (128#16).toNat (64#16).toNat ∧
      s.allocReply = false := by decide

/-- LC8: the frame needs one byte more than `FB_BYTES_MAX`. -/
theorem test_meets_AllocationFailureMakesNoops_size :
    let s := { fresh true 0 with params := { Params.standard with fbBytesMax := 1023 } }
    s.Configured ∧ s.allocFail = false ∧ s.life = .uninit ∧ LegalGeometry (128#16).toNat (64#16).toNat ∧
      s.params.fbBytesMax < (128#16).toNat * (64#16).toNat / 8 := by decide

/-- A later operation, and a later INIT. -/
theorem test_meets_AllocationFailureMakesNoops_later :
    (∀ w h a, Instr.flush = .init w h a → LegalGeometry w.toNat h.toNat) ∧
      ∀ w h a, Instr.init 128#16 64#16 0x3C#7 = .init w h a → LegalGeometry w.toNat h.toNat := by
  constructor
  · intro w h a e
    cases e
  · intro w h a e
    cases e
    decide

/-- LC5's illegal geometries, and legal ones at the bounds. -/
theorem test_meets_IllegalGeometryIsRefused :
    State.reset.Configured ∧
      (∀ g ∈ [(0, 8), (257, 8), (128, 0), (128, 7), (128, 12), (128, 264)], ¬LegalGeometry g.1 g.2) ∧
      ∀ g ∈ [(1, 8), (256, 8), (1, 256), (256, 256)], LegalGeometry g.1 g.2 := by decide

theorem test_meets_ReinitIsRefused :
    ∀ l ∈ [Life.active, Life.off], ((sample 0).setLife l).Configured ∧ ((sample 0).setLife l).Allocated ∧
      LegalGeometry (8#16).toNat (8#16).toNat := by decide

theorem test_meets_BadConfigRefusesEveryOperation :
    let s := { withParams State.reset 1 true .keepGoing with inputs := [.op 6#64] }
    s.params.chunkEnable = true ∧ s.params.maxTxn < 2 ∧ s.inputs = .op 6#64 :: [] := by decide

theorem test_meets_LifecycleFollowsItsTable :
    exec .clear State.reset = .next (State.reset.respond false) ∧
      nextIs (exec .shutdown (sample 1)) (fun t => t.life == .off) = true ∧
      nextIs (exec (.init 8#16 8#16 0#7) (fresh false 0)) (fun t => t.allocFail) = true := ⟨rfl, by decide, by decide⟩

theorem test_meets_OnlyResetLeavesOff :
    ((presented 6#64).setLife .off).life = .off ∧
      (∀ rest, ((presented 6#64).setLife .off).inputs ≠ .reset :: rest) ∧
      nextIs (step ((presented 6#64).setLife .off)) (fun _ => true) = true := by
  refine ⟨rfl, ?_, by decide⟩
  intro rest h
  cases h

theorem test_meets_OnlyResetClearsAllocFail :
    (failed.setInputs [.op 6#64]).allocFail = true ∧
      (∀ rest, (failed.setInputs [.op 6#64]).inputs ≠ .reset :: rest) ∧
      nextIs (step (failed.setInputs [.op 6#64])) (fun _ => true) = true := by
  refine ⟨rfl, ?_, by decide⟩
  intro rest h
  cases h

theorem test_meets_ParametersNeverChange :
    nextIs (step (presented 6#64)) (fun _ => true) = true := by decide

theorem test_meets_InitTablesHoldEveryFunction : LegalGeometry 1 8 ∧ LegalGeometry 256 256 := by decide

theorem test_meets_StandardTableSetsMultiplexRatio :
    Params.standard.initTable = .standard ∧ LegalGeometry 1 8 ∧ LegalGeometry 256 256 ∧
      (Params.standard.chunkEnable = true → 3 ≤ Params.standard.maxTxn) := by decide

/-- 1 by 8: 18 transactions (LC2). -/
theorem test_meets_InitTransactionCount :
    let s := fresh true 18
    s.Configured ∧ s.Inv ∧ s.allocFail = false ∧ s.life = .uninit ∧ LegalGeometry (1#16).toNat (8#16).toNat ∧
      s.allocReply = true ∧ (1#16).toNat * (8#16).toNat / 8 ≤ s.params.fbBytesMax ∧
      18 = ((tableGroups s.params.initTable (1#16).toNat (8#16).toNat).map
        fun g => chunkCount s.params g.bytes.length).sum + 1 +
        (chunkCount s.params 6 + chunkCount s.params ((1#16).toNat * (8#16).toNat / 8)) ∧
      (s.afterAlloc (1#16).toNat (8#16).toNat 0x3C#7).AnswersFirst 18 ∧
      (s.afterAlloc (1#16).toNat (8#16).toNat 0x3C#7).RunsToEnd 18 := by decide

/-- 128 by 64: 51 transactions (LC1). -/
theorem test_meets_InitTransactionCount_standard :
    let s := fresh true 0
    s.params.chunkEnable = true ∧ s.params.maxTxn = 32 ∧ s.params.initTable = .standard ∧
      51 = ((tableGroups s.params.initTable (128#16).toNat (64#16).toNat).map
        fun g => chunkCount s.params g.bytes.length).sum + 1 +
        (chunkCount s.params 6 + chunkCount s.params ((128#16).toNat * (64#16).toNat / 8)) ∧
      (s.afterAlloc (128#16).toNat (64#16).toNat 0x3C#7).AnswersFirst 51 ∧
      (s.afterAlloc (128#16).toNat (64#16).toNat 0x3C#7).RunsToEnd 51 := by decide

theorem test_meets_StepKeepsTheInvariant :
    (presented 0x13#64).Inv ∧ nextIs (step (presented 0x13#64)) (fun _ => true) = true := by decide

/-- A CMD from a state that already holds a record. -/
theorem test_meets_StepKeepsTransactionsFramed :
    let s := { sample 1 with inputs := [.op 0xA708#64], txns := [⟨0x3C#7, [0x40#8, 1#8], false⟩] }
    s.BusInv ∧ nextIs (step s) (fun t => t.txns.length == 2) = true := by decide

theorem test_meets_NoStepLeavesTheFrameStore : (presented 0x0000000007000713#64).Inv := by decide

theorem test_meets_TransactionsOnlyGrowAndGoToAddr :
    (∀ rest, ((sample 1).setInputs [.op 0xA708#64]).inputs ≠ .reset :: rest) ∧
      nextIs (step ((sample 1).setInputs [.op 0xA708#64])) (fun t => t.txns.length == 1) = true := by
  refine ⟨?_, by decide⟩
  intro rest h
  cases h

theorem test_meets_OperationsAnswerOnce :
    exec .clear State.reset = .next (State.reset.respond false) ∧ (∀ w h a, Instr.clear ≠ .init w h a) ∧
      ∀ x y, Instr.clear ≠ .getpx x y := by
  refine ⟨rfl, ?_, ?_⟩
  · intro w h a
    simp
  · intro x y
    simp

theorem test_meets_CommandsIgnoreTheFrameStore :
    ∀ i ∈ [Instr.cmd 1#8, .cmdlist [1#8], .shutdown], nextIs (exec i (sample 1)) (fun t =>
      t.txns.length == 1) = true := by decide

theorem test_meets_OperationsSendBoundedlyMany :
    (sample 1).Inv ∧ (Instr.cmdlist [1#8]).wellFormed = true ∧
      nextIs (exec (.cmdlist [1#8]) (sample 1)) (fun t => t.txns.length == 1) = true ∧
      (fresh true 18).Inv ∧ (Instr.init 1#16 8#16 0x3C#7).wellFormed = true := by decide

/-- An operation that completes, an INIT with an illegal geometry and an INIT while active. -/
theorem test_meets_PresentedOperationsEnd :
    ∀ p ∈ [(0x6#64, Instr.clear), (0x1#64, Instr.init 0#16 0#16 0#7),
        (0x00003D0008000801#64, Instr.init 8#16 8#16 0x3D#7)],
      (presented p.1).Inv ∧ (presented p.1).Configured ∧ (∀ a ∈ (presented p.1).busAnswers, a ≠ .never) ∧
        (presented p.1).inputs = .op p.1 :: [] ∧ decode p.1 [] = .instr p.2 [] := by decide

end Sys2Proof.Tests
end

section
/-! PROOFS. The scope family: a step runs the operation presented, and no step changes a parameter (rules R7, R8,
R27). -/

namespace Sys2Proof

/-! ### The word of a decoded operation -/

/-- A field read from a word and put back at its place is the word under the field's mask. -/
theorem fieldAt_extractLsb' (w : OpWord) (lo n : Nat) :
    fieldAt (w.extractLsb' lo n) lo = w &&& fieldAt (BitVec.allOnes n) lo := by
  apply BitVec.eq_of_getLsbD_eq
  intro k hk
  rw [BitVec.getLsbD_and, getLsbD_fieldAt, getLsbD_fieldAt, BitVec.getLsbD_extractLsb', BitVec.getLsbD_allOnes]
  by_cases hlo : lo ≤ k
  · rw [Nat.add_sub_cancel' hlo, Bool.and_comm (w.getLsbD k), Bool.and_assoc]
    simp only [Bool.and_assoc]
  · simp [hlo]

/-- A one-bit operand as the field it is read from. -/
theorem ofBool_getLsbD (w : OpWord) (k : Nat) : BitVec.ofBool (w.getLsbD k) = w.extractLsb' k 1 := by
  apply BitVec.eq_of_getLsbD_eq
  intro j hj
  obtain rfl : j = 0 := by omega
  simp [-BitVec.getLsbD_eq_getElem]

/-- A word that belongs to a row is the row's pattern with the word's fields, where `fields` covers every bit that the
row's mask leaves free. -/
theorem fields_or_pattern {w mask pattern : OpWord} (hm : w &&& mask = pattern) (fields : OpWord)
    (hcover : fields ||| mask = BitVec.allOnes 64) : w &&& fields ||| pattern = w := by
  rw [← hm, ← BitVec.and_or_distrib_left, hcover, BitVec.and_allOnes]

/-- The operands read from a word that belongs to its row encode back to the word (rules R54, R55, R58): in each
format the fields and the row's mask cover the word. -/
theorem encodeWord_of_extractFields {r : OpcodeRow} (hr : r ∈ opcodeTable) {w : OpWord}
    (hm : w &&& r.mask = r.pattern) {following rest : List HostInput} {i : Instr}
    (h : extractFields r.opcode w following = .instr i rest) : encodeWord i = w := by
  simp only [opcodeTable, List.mem_cons, List.not_mem_nil, or_false] at hr
  rcases hr with rfl | rfl | rfl | rfl | rfl | rfl | rfl | rfl | rfl
  · cases h
    simpa only [encodeWord, lowField, highField, fieldAt_extractLsb', BitVec.and_or_distrib_left] using
      fields_or_pattern hm (fieldAt (.allOnes 7) 40 ||| fieldAt (.allOnes 16) 24 ||| fieldAt (.allOnes 16) 8)
        (by decide)
  · cases h
    exact hm.symm.trans BitVec.and_allOnes
  · cases h
    simpa only [encodeWord, lowField, highField, ofBool_getLsbD, fieldAt_extractLsb', BitVec.and_or_distrib_left] using
      fields_or_pattern hm (fieldAt (.allOnes 16) 24 ||| fieldAt (.allOnes 16) 8 ||| fieldAt (.allOnes 1) 4) (by decide)
  · cases h
    simpa only [encodeWord, lowField, highField, fieldAt_extractLsb', BitVec.and_or_distrib_left] using
      fields_or_pattern hm (fieldAt (.allOnes 8) 56 ||| fieldAt (.allOnes 8) 48 ||| fieldAt (.allOnes 8) 40 |||
        fieldAt (.allOnes 16) 24 ||| fieldAt (.allOnes 16) 8) (by decide)
  · cases h
    simpa only [encodeWord, lowField, highField, fieldAt_extractLsb', BitVec.and_or_distrib_left] using
      fields_or_pattern hm (fieldAt (.allOnes 16) 24 ||| fieldAt (.allOnes 16) 8) (by decide)
  · cases h
    exact hm.symm.trans BitVec.and_allOnes
  · cases h
    exact hm.symm.trans BitVec.and_allOnes
  · cases h
    simpa only [encodeWord, fieldAt_extractLsb'] using fields_or_pattern hm (fieldAt (.allOnes 8) 8) (by decide)
  · rw [extractFields] at h
    split at h
    · next ht =>
      cases h
      simpa only [encodeWord, (takePayload_some ht).1, BitVec.ofNat_toNat, BitVec.setWidth_eq, lowField,
        fieldAt_extractLsb'] using fields_or_pattern hm (fieldAt (.allOnes 16) 8) (by decide)
    · cases h

/-- A word that decodes has a row of the opcode table, belongs to it, and is read by the row's format (rule R57). -/
theorem decode_instr {w : OpWord} {following rest : List HostInput} {i : Instr}
    (h : decode w following = .instr i rest) :
    ∃ r ∈ opcodeTable, findRow (opField w) = some r ∧ w &&& r.mask = r.pattern ∧
      extractFields r.opcode w following = .instr i rest := by
  unfold decode at h
  split at h
  · cases h
  · next r hf =>
    split at h
    · next hm => exact ⟨r, List.mem_of_find?_eq_some hf, hf, hm, h⟩
    · cases h

/-- A word that decodes is the word of the operation it decodes to (rules R55 to R57). -/
theorem encodeWord_of_decode {w : OpWord} {following rest : List HostInput} {i : Instr}
    (h : decode w following = .instr i rest) : encodeWord i = w := by
  obtain ⟨r, hr, -, hm, hx⟩ := decode_instr h
  exact encodeWord_of_extractFields hr hm hx

end Sys2Proof

namespace Sys2Proof.Machine

open Sys2Proof

/-! ### A step and the operation presented -/

/-- An illegal configuration refuses a gated operation before the gate (rules R76, R103). -/
theorem gated_of_not_configured {s : State} (hs : ¬s.Configured) (i : Instr) (body : State → Result) :
    gated i s body = .refused (.badConfig (encodeWord i)) :=
  configured_of_not hs i _

/-- An illegal configuration refuses every operation, with the operation's word (rules R76, R98). -/
theorem exec_of_not_configured {s : State} (hs : ¬s.Configured) (i : Instr) :
    exec i s = .refused (.badConfig (encodeWord i)) := by
  cases i with
  | init => rw [exec, execInit, configured_of_not hs]
  | shutdown => rw [exec, execShutdown, gated_of_not_configured hs]
  | setpx => rw [exec, execSetpx, gated_of_not_configured hs]
  | setrgb => rw [exec, execSetrgb, gated_of_not_configured hs]
  | getpx => rw [exec, execGetpx, gated_of_not_configured hs]
  | clear => rw [exec, execClear, gated_of_not_configured hs]
  | flush => rw [exec, execFlush, gated_of_not_configured hs]
  | cmd => rw [exec, execCmd, gated_of_not_configured hs]
  | cmdlist => rw [exec, execCmdlist, gated_of_not_configured hs]

/-- Settles O9: a legal configuration leaves the step to `exec`; an illegal one is refused by both with the same word,
since a word that decodes is the word of its operation. -/
theorem stepRunsTheDecodedOperation : Obligations.StepRunsTheDecodedOperation := by
  intro s w following i rest hin hd
  rw [step_op hin]
  by_cases hs : s.Configured
  · simp [configBad_eq_false.2 hs, hd]
  · rw [if_pos (configBad_eq_true.2 hs), exec_of_not_configured (s := s.setInputs rest) hs, encodeWord_of_decode hd]

/-! ### The parameters -/

theorem BusRun.params {s t : State} (h : BusRun s t) : t.params = s.params := by
  obtain ⟨new, l, n, rfl, -⟩ := h
  exact State.afterBus_params s new l n

/-- No operation changes a parameter (rule R8). -/
theorem ExecNext.params {i : Instr} {s t : State} (h : ExecNext s i t) : t.params = s.params := by
  cases h with
  | noop => exact State.respond_params s _
  | read => exact State.respond_params s _
  | setpx => simp
  | setrgb => simp
  | clear => simp
  | cmd c u _ hu => simpa using hu.params
  | cmdlist payload u _ hu => simpa using hu.params
  | flush u _ hu => simpa using hu.params
  | shutdown u _ hu => simpa using hu.params
  | initFails => simp
  | initRuns width height addr u _ _ _ _ hu =>
    obtain ⟨new, l, n, v, rfl, -⟩ := hu
    simp

/-- Settles O48: waiting and a reset keep the parameters, and so does every operation. -/
theorem parametersNeverChange : Obligations.ParametersNeverChange := by
  intro s t h
  rcases step_next h with ⟨-, rfl⟩ | ⟨rest, -, rfl⟩ | ⟨w, following, i, rest, -, -, -, hx⟩
  · rfl
  · simp
  · exact (exec_next hx).2.params

end Sys2Proof.Machine
end

section
/-! PROOFS. The state family: what an operation writes before its transactions, the invariant of the state, the
lifecycle, the outputs, and what the operations that send transactions do (rules R16 to R31, R75 to R95). -/

namespace Sys2Proof.Machine

open Sys2Proof

/-! ### What an operation writes before its transactions -/

/-- The states an operation can have written before its first transaction (rules R66, R68, R70, R91, R95, R101). -/
inductive ExecBase (s : State) : Instr → State → Prop where
  /-- Nothing is written. -/
  | same (i : Instr) : ExecBase s i s
  /-- A byte of the frame store. -/
  | byte (i : Instr) (k : Nat) (v : Byte) : s.Allocated → k < s.fbSize → ExecBase s i (s.setFb (s.fb.write k v))
  /-- The whole frame store, by CLEAR. -/
  | cleared : ExecBase s .clear (s.setFb (s.fb.clearBelow s.fbSize))
  /-- `LIFE`, by SHUTDOWN. -/
  | off : s.Allocated → ExecBase s .shutdown (s.setLife .off)
  /-- `ALLOC_FAIL`, by INIT. -/
  | allocFails (width height : Field16) (addr : BusAddr) : s.allocFail = false → s.life = .uninit →
    ExecBase s (.init width height addr) (s.afterAllocDraw.setAllocFail true)
  /-- The geometry, the address, the frame store and `LIFE`, by INIT. -/
  | allocates (width height : Field16) (addr : BusAddr) : s.allocFail = false → s.life = .uninit →
    LegalGeometry width.toNat height.toNat →
    ExecBase s (.init width height addr) (s.afterAlloc width.toNat height.toNat addr)

/-- Transactions after which `SEG` is set idle. -/
theorem BusRun.idle {s u : State} (h : BusRun s u) : BusRunSeg s (u.setSeg none) := by
  obtain ⟨new, l, n, rfl, hn⟩ := h
  exact ⟨new, l, n, none, rfl, hn⟩

/-- A completed operation wrote its base state `b`, ran transactions from it to `u`, and answered; it leaves an idle
`SEG` idle, and answers 1 only if it is INIT or GETPX (rules R26, R28). -/
theorem ExecNext.base {i : Instr} {s t : State} (h : ExecNext s i t) :
    ∃ b u r, ExecBase s i b ∧ BusRunSeg b u ∧ t = u.respond r ∧ (s.seg = none → u.seg = none) ∧
      ((∀ w h a, i ≠ .init w h a) → (∀ x y, i ≠ .getpx x y) → r = false) := by
  cases h with
  | noop => exact ⟨s, s, false, .same i, .refl s, rfl, id, fun _ _ => rfl⟩
  | read x y r => exact ⟨s, s, r, .same _, .refl s, rfl, id, fun _ hg => absurd rfl (hg x y)⟩
  | setpx x y on k v ha hk => exact ⟨_, _, false, .byte _ k v ha hk, .refl _, rfl, id, fun _ _ => rfl⟩
  | setrgb x y r g b k v ha hk => exact ⟨_, _, false, .byte _ k v ha hk, .refl _, rfl, id, fun _ _ => rfl⟩
  | clear => exact ⟨_, _, false, .cleared, .refl _, rfl, id, fun _ _ => rfl⟩
  | cmd c u _ hu => exact ⟨s, _, false, .same _, hu.idle, rfl, fun _ => rfl, fun _ _ => rfl⟩
  | cmdlist payload u _ hu => exact ⟨s, _, false, .same _, hu.idle, rfl, fun _ => rfl, fun _ _ => rfl⟩
  | flush u _ hu => exact ⟨s, _, false, .same _, hu.idle, rfl, fun _ => rfl, fun _ _ => rfl⟩
  | shutdown u ha hu => exact ⟨_, _, false, .off ha, hu.idle, rfl, fun _ => rfl, fun _ _ => rfl⟩
  | initFails w h a hf hl => exact ⟨_, _, false, .allocFails w h a hf hl, .refl _, rfl, id, fun _ _ => rfl⟩
  | initRuns w h a u hf hl hg hidle hu =>
    refine ⟨_, u, true, .allocates w h a hf hl hg, hu, rfl, fun hseg => ?_, fun hi => absurd rfl (hi w h a)⟩
    obtain ⟨new, l, n, rfl, -⟩ := hidle hseg
    exact hseg

/-! ### What transactions leave unchanged -/

theorem BusRunSeg.life {b u : State} (h : BusRunSeg b u) : u.life = b.life := by
  obtain ⟨new, l, n, v, rfl, -⟩ := h
  rfl

theorem BusRunSeg.allocFail {b u : State} (h : BusRunSeg b u) : u.allocFail = b.allocFail := by
  obtain ⟨new, l, n, v, rfl, -⟩ := h
  rfl

theorem BusRunSeg.results {b u : State} (h : BusRunSeg b u) : u.results = b.results := by
  obtain ⟨new, l, n, v, rfl, -⟩ := h
  rfl

/-- Transactions only add records, all to the address held (rules R23, R29). -/
theorem BusRunSeg.txns {b u : State} (h : BusRunSeg b u) :
    ∃ new, u.txns = b.txns ++ new ∧ ∀ e ∈ new, e.addr = u.addr := by
  obtain ⟨new, l, n, v, rfl, hn⟩ := h
  exact ⟨new, rfl, fun e he => (hn e he).1⟩

/-- Transactions that leave `SEG` idle keep the invariant: it speaks of nothing else they change. -/
theorem BusRunSeg.inv {b u : State} (h : BusRunSeg b u) (hb : b.Inv) (hseg : u.seg = none) : u.Inv := by
  obtain ⟨new, l, n, v, rfl, -⟩ := h
  obtain ⟨hwf, hbelow, -, hfail, hgeom⟩ := hb
  exact ⟨hwf, hbelow, hseg, hfail, hgeom⟩

theorem ExecBase.txns {i : Instr} {s b : State} (h : ExecBase s i b) : b.txns = s.txns := by
  cases h <;> rfl

theorem ExecBase.results {i : Instr} {s b : State} (h : ExecBase s i b) : b.results = s.results := by
  cases h <;> rfl

/-! ### The invariant of the state -/

/-- A reset meets the invariant from any state (rules R31, R115). -/
theorem State.Inv.resetEvent (s : State) : s.resetEvent.Inv := by
  refine ⟨rfl, rfl, rfl, ?_, ?_⟩ <;> simp

/-- A frame store in canonical form inside `FB_SIZE` may replace another. -/
theorem State.Inv.setFb {s : State} (hs : s.Inv) {m : Memory} (hwf : m.wf = true) (hbelow : m.below s.fbSize = true) :
    (s.setFb m).Inv := by
  obtain ⟨-, -, hseg, hfail, hgeom⟩ := hs
  exact ⟨hwf, hbelow, hseg, hfail, hgeom⟩

/-- SHUTDOWN keeps `FB_SIZE`, since the store was allocated before it (rule R25). -/
theorem State.Inv.setLife_off {s : State} (hs : s.Inv) (ha : s.Allocated) : (s.setLife .off).Inv := by
  obtain ⟨hwf, hbelow, hseg, -, hgeom⟩ := hs
  obtain ⟨hf, hl⟩ := ha
  have hsize : (s.setLife .off).fbSize = s.fbSize := by
    rw [fbSize_of_allocated hl, fbSize_of_allocated (by simp)]
    rfl
  exact ⟨hwf, by rw [hsize]; exact hbelow, hseg, by simp [hf], fun _ => hgeom hl⟩

/-- A failed allocation leaves `LIFE = UNINIT` (rule R18). -/
theorem State.Inv.allocFails {s : State} (hs : s.Inv) (hl : s.life = .uninit) :
    (s.afterAllocDraw.setAllocFail true).Inv := by
  obtain ⟨hwf, hbelow, hseg, -, hgeom⟩ := hs
  exact ⟨hwf, hbelow, hseg, fun _ => hl, hgeom⟩

/-- A successful allocation latches a legal geometry and an empty list of bytes (rules R24, R90). -/
theorem State.Inv.afterAlloc {s : State} (hs : s.Inv) (hf : s.allocFail = false) {w h : Nat} (hg : LegalGeometry w h)
    (addr : BusAddr) : (s.afterAlloc w h addr).Inv := by
  obtain ⟨-, -, hseg, -, -⟩ := hs
  refine ⟨rfl, rfl, hseg, by simp [hf], fun _ => ?_⟩
  rw [State.afterAlloc_w, State.afterAlloc_h, toNat_ofNat9 hg.2.1, toNat_ofNat9 hg.2.2.2.1]
  exact hg

/-- What an operation writes before its transactions keeps the invariant. -/
theorem ExecBase.inv {i : Instr} {s b : State} (h : ExecBase s i b) (hs : s.Inv) : b.Inv := by
  have ⟨hwf, hbelow, _⟩ := hs
  cases h with
  | same => exact hs
  | byte _ k v _ hk => exact hs.setFb (Memory.wf_write hwf k v) (Memory.below_write hk v hbelow)
  | cleared =>
    rw [Memory.clearBelow_of_below hbelow]
    exact hs.setFb rfl rfl
  | off ha => exact hs.setLife_off ha
  | allocFails _ _ _ _ hl => exact hs.allocFails hl
  | allocates _ _ addr hf _ hg => exact hs.afterAlloc hf hg addr

/-- Every operation that completes keeps the invariant. -/
theorem exec_inv {i : Instr} {s t : State} (hs : s.Inv) (h : exec i s = .next t) : t.Inv := by
  obtain ⟨b, u, r, hb, hu, rfl, hidle, -⟩ := (exec_next h).2.base
  have ⟨_, _, hseg, _⟩ := hs
  exact hu.inv (hb.inv hs) (hidle hseg)

/-- Settles O53: waiting keeps the state, a reset meets the invariant from anywhere, and every operation keeps it. -/
theorem stepKeepsTheInvariant : Obligations.StepKeepsTheInvariant := by
  intro s t hs h
  rcases step_next h with ⟨-, rfl⟩ | ⟨rest, -, rfl⟩ | ⟨w, following, i, rest, -, -, -, hx⟩
  · exact hs
  · exact State.Inv.resetEvent _
  · exact exec_inv (s := s.setInputs rest) hs hx

/-- Settles O52: `State.reset` is the reset of itself, has no records, and chunks with `M = 32`. -/
theorem resetMeetsTheInvariants : Obligations.ResetMeetsTheInvariants := by
  refine ⟨State.Inv.resetEvent State.reset, ?_, ?_⟩
  · intro t ht
    cases ht
  · intro _
    decide

/-! ### The lifecycle -/

/-- A step that is no reset waits, or runs an operation on the state with the inputs taken. -/
theorem step_next_of_no_reset {s t : State} (hr : ∀ rest, s.inputs ≠ .reset :: rest) (h : step s = .next t) :
    t = s ∨ ∃ i rest, exec i (s.setInputs rest) = .next t := by
  rcases step_next h with ⟨-, rfl⟩ | ⟨rest, hin, -⟩ | ⟨w, following, i, rest, -, -, -, hx⟩
  · exact .inl rfl
  · exact absurd hin (hr rest)
  · exact .inr ⟨i, rest, hx⟩

/-- Settles O45: the transactions and the response change neither piece of state, so it is read off what the operation
wrote before them. -/
theorem lifecycleFollowsItsTable : Obligations.LifecycleFollowsItsTable := by
  intro i s t h
  obtain ⟨b, u, r, hb, hu, rfl, -, -⟩ := (exec_next h).2.base
  rw [State.respond_life, State.respond_allocFail, hu.life, hu.allocFail]
  cases hb with
  | same => exact ⟨.inl rfl, .inl rfl⟩
  | byte => exact ⟨.inl rfl, .inl rfl⟩
  | cleared => exact ⟨.inl rfl, .inl rfl⟩
  | off ha => exact ⟨.inr (.inr ⟨ha.2, ha.1, rfl, rfl⟩), .inl rfl⟩
  | allocFails width height addr hf hl => exact ⟨.inl rfl, .inr ⟨hf, rfl, hl, hl, width, height, addr, rfl⟩⟩
  | allocates width height addr hf hl => exact ⟨.inr (.inl ⟨hl, hf, rfl, width, height, addr, rfl⟩), .inl rfl⟩

/-- Settles O46, by the lifecycle's table: of its ways to change `LIFE` one starts from `UNINIT` and the other ends in
`OFF`. -/
theorem onlyResetLeavesOff : Obligations.OnlyResetLeavesOff := by
  intro s t hoff hr h
  rcases step_next_of_no_reset hr h with rfl | ⟨i, rest, hx⟩
  · exact hoff
  · obtain ⟨hlife, -⟩ := lifecycleFollowsItsTable i _ t hx
    rcases hlife with hl | ⟨hl, -⟩ | ⟨-, -, hl, -⟩
    · rw [hl]
      exact hoff
    · rw [State.setInputs_life, hoff] at hl
      cases hl
    · exact hl

/-- After an allocation failure an operation that completes does nothing (rules R18, R89): every other way to complete
needs `ALLOC_FAIL = 0`. -/
theorem ExecNext.noop_of_allocFail {i : Instr} {s t : State} (h : ExecNext s i t) (hf : s.allocFail = true) :
    t = s.respond false := by
  have hclosed : ¬s.Allocated := fun ha => by simp [ha.1] at hf
  have hset : s.allocFail ≠ false := by simp [hf]
  cases h with
  | noop => rfl
  | read _ _ _ ha => exact absurd ha hclosed
  | setpx _ _ _ _ _ ha => exact absurd ha hclosed
  | setrgb _ _ _ _ _ _ _ ha => exact absurd ha hclosed
  | clear ha => exact absurd ha hclosed
  | cmd _ _ ha => exact absurd ha hclosed
  | cmdlist _ _ ha => exact absurd ha hclosed
  | flush _ ha => exact absurd ha hclosed
  | shutdown _ ha => exact absurd ha hclosed
  | initFails _ _ _ hf' => exact absurd hf' hset
  | initRuns _ _ _ _ hf' => exact absurd hf' hset

/-- Settles O47: waiting changes nothing, and an operation takes its inputs and answers. -/
theorem onlyResetClearsAllocFail : Obligations.OnlyResetClearsAllocFail := by
  intro s t hf hr h
  rcases step_next_of_no_reset hr h with rfl | ⟨i, rest, hx⟩
  · exact ⟨hf, rfl⟩
  · obtain rfl := (exec_next hx).2.noop_of_allocFail hf
    exact ⟨hf, rfl⟩

/-- Settles O27, by INIT's conditions. -/
theorem initIsNoopAfterAllocationFailure : Obligations.InitIsNoopAfterAllocationFailure := by
  intro s width height addr hs hf hg
  rw [exec, execInit_eq hs, if_neg (not_not_intro hg), if_pos hf]

/-! ### The outputs -/

/-- Settles O56: an operation's records are those of its transactions, which go to the address held from then on. -/
theorem transactionsOnlyGrowAndGoToAddr : Obligations.TransactionsOnlyGrowAndGoToAddr := by
  intro s t hr h
  rcases step_next_of_no_reset hr h with rfl | ⟨i, rest, hx⟩
  · exact ⟨[], by simp, by simp⟩
  · obtain ⟨b, u, r, hb, hu, rfl, -, -⟩ := (exec_next hx).2.base
    obtain ⟨new, hnew, haddr⟩ := hu.txns
    exact ⟨new, by rw [State.respond_txns, hnew, hb.txns, State.setInputs_txns], haddr⟩

/-- Settles O57: only the operation's end adds a response. -/
theorem operationsAnswerOnce : Obligations.OperationsAnswerOnce := by
  intro i s t h
  obtain ⟨b, u, r, hb, hu, rfl, -, hzero⟩ := (exec_next h).2.base
  exact ⟨r, by rw [State.respond_results, hu.results, hb.results], hzero⟩

/-! ### Command bytes and the frame store -/

/-- A transaction neither reads nor writes `FB`. -/
theorem transact_setFb (b : List Byte) (m : Memory) (s : State) :
    transact b (s.setFb m) = (transact b s).mapState (·.setFb m) := by
  cases h : s.busAnswers with
  | nil =>
    rw [transact_of_nil h, transact_of_nil (s := s.setFb m) h, apply_ite fun f : Flow => f.mapState (·.setFb m)]
    rfl
  | cons a rest =>
    cases a with
    | answer ok =>
      rw [transact_of_answer h, transact_of_answer (s := s.setFb m) h,
        apply_ite fun f : Flow => f.mapState (·.setFb m)]
      rfl
    | never => rw [transact_of_never h, transact_of_never (s := s.setFb m) h, Flow.mapState_waiting]

theorem runPlan_setFb (plan : List (List Byte)) (m : Memory) (s : State) :
    runPlan plan (s.setFb m) = (runPlan plan s).mapState (·.setFb m) := by
  induction plan generalizing s with
  | nil => rfl
  | cons b bs ih =>
    rw [runPlan_cons, runPlan_cons, transact_setFb]
    cases transact b s <;> simp [ih]

/-- A stream neither reads nor writes `FB`, beyond the bytes it is given. -/
theorem stream_setFb {s : State} (hs : s.Configured) (marker : Byte) (bytes : List Byte) (m : Memory) :
    stream marker bytes (s.setFb m) = (stream marker bytes s).mapState (·.setFb m) := by
  rw [stream_eq_cut hs, stream_eq_cut (s := s.setFb m) hs, runPlan_setFb, Flow.mapState_mapState,
    Flow.mapState_mapState]
  rfl

/-- The end of an operation does not look at `FB`. -/
theorem Flow.finish_mapState_setFb {f : Flow} {r : Bool} {t : State} (h : f.finish r = .next t) (m : Memory) :
    (f.mapState (·.setFb m)).finish r = .next (t.setFb m) := by
  cases f with
  | going u => cases h; rfl
  | aborted u => cases h; rfl
  | waiting => cases h

/-- A stream that ends an operation ends it with any other frame-store content too, in the same state with that
content. -/
theorem finish_stream_setFb {s t : State} (hs : s.Configured) {marker : Byte} {bytes : List Byte} {r : Bool}
    (h : (stream marker bytes s).finish r = .next t) (m : Memory) :
    (stream marker bytes (s.setFb m)).finish r = .next (t.setFb m) := by
  rw [stream_setFb hs]
  exact Flow.finish_mapState_setFb h m

theorem not_allocated {s : State} : ¬s.Allocated ↔ s.allocFail = true ∨ s.life = .uninit := by
  rw [← gateClosed_eq_false, Bool.not_eq_false, gateClosed_eq_true]

/-- A gated operation whose body does not depend on `FB` does not depend on it either: nor do its conditions. -/
theorem gated_setFb {i : Instr} {s t : State} {body : State → Result} {m : Memory} (h : gated i s body = .next t)
    (hbody : s.Configured → body s = .next t → body (s.setFb m) = .next (t.setFb m)) :
    gated i (s.setFb m) body = .next (t.setFb m) := by
  obtain ⟨hs, hcase⟩ := gated_cases h
  by_cases ha : s.Allocated
  · rw [gated_of_open hs ha] at h
    rw [gated_of_open (s := s.setFb m) hs ha]
    exact hbody hs h
  · obtain rfl : t = s.respond false := hcase.resolve_right fun h => ha h.1
    exact gated_of_closed (s := s.setFb m) hs (not_allocated.1 ha) i body

/-- CMD, CMDLIST and SHUTDOWN with any other frame-store content end in the same state with that content. -/
theorem exec_setFb {i : Instr} {c : Byte} {payload : List Byte} (hi : i ∈ [Instr.cmd c, .cmdlist payload, .shutdown])
    {s t : State} (h : exec i s = .next t) (m : Memory) : exec i (s.setFb m) = .next (t.setFb m) := by
  simp only [List.mem_cons, List.not_mem_nil, or_false] at hi
  rcases hi with rfl | rfl | rfl
  · rw [exec, execCmd] at h ⊢
    exact gated_setFb h fun hs hb => finish_stream_setFb hs hb m
  · rw [exec, execCmdlist] at h ⊢
    exact gated_setFb h fun hs hb => finish_stream_setFb hs hb m
  · rw [exec, execShutdown] at h ⊢
    exact gated_setFb h fun hs hb => finish_stream_setFb (s := s.setLife .off) hs hb m

/-- Settles O58: with the content it already has, the statement for any content says that `FB` is kept. -/
theorem commandsIgnoreTheFrameStore : Obligations.CommandsIgnoreTheFrameStore := by
  intro s t m c payload i hi h
  refine ⟨?_, exec_setFb hi h m⟩
  have hself : exec i (s.setFb s.fb) = .next (t.setFb s.fb) := exec_setFb hi h s.fb
  have ht : t = t.setFb s.fb := by
    rw [show s.setFb s.fb = s from rfl, h] at hself
    exact Host.Outcome.next.inj hself
  rw [ht, State.setFb_fb]

/-! ### What the operations that send transactions do -/

/-- Settles O29: CMD `c` and CMDLIST `[c]` have one body under one gate, and a stream of one byte is its
transaction. -/
theorem cmdMatchesOneByteCmdlist : Obligations.CmdMatchesOneByteCmdlist := by
  intro s c hs
  constructor
  · by_cases ha : s.Allocated
    · rw [exec, exec, execCmd, execCmdlist, gated_of_open hs ha, gated_of_open hs ha]
    · rw [not_allocated] at ha
      rw [exec, exec, execCmd, execCmdlist, gated_of_closed hs ha, gated_of_closed hs ha]
  · intro ha
    rw [exec, execCmd, gated_of_open hs ha, stream_one hs]
    rfl

/-- A stream of one command byte, its transaction answered, ends with that record and `SEG` idle, whatever the
answer (rules R26, R75). -/
theorem finish_stream_one {s : State} (hs : s.Configured) (ha : s.AnswersFirst 1) (c : Byte) (r : Bool) :
    (stream cmdMarker [c] s).finish r = .next
      { s with
        seg := none
        txns := s.txns ++ [⟨s.addr, [0x00#8, c], s.reply 0⟩]
        results := s.results ++ [r]
        busAnswers := s.busAnswers.drop 1
        draws := s.draws + (1 - s.busAnswers.length) } := by
  rw [stream_one hs, ← runPlan_singleton, finish_runPlan_idle ha, State.afterPlan_one]
  rfl

/-- Settles O28: with the gate open CMD is a stream of one command byte. -/
theorem cmdSendsOneTransaction : Obligations.CmdSendsOneTransaction := by
  intro s c hs ha hbus
  rw [exec, execCmd, gated_of_open hs ha, finish_stream_one hs hbus]

/-- Settles O39: display-off is sent from the state that is already `OFF`. -/
theorem shutdownTurnsTheDisplayOff : Obligations.ShutdownTurnsTheDisplayOff := by
  intro s hs ha hbus
  rw [exec, execShutdown, gated_of_open hs ha, finish_stream_one (s := s.setLife .off) hs hbus]
  rfl

/-- Settles O30: the segmenter runs the chunk plan, and an answered plan ends in closed form. -/
theorem cmdlistSendsItsChunks : Obligations.CmdlistSendsItsChunks := by
  intro s payload hs ha hlen hbus
  rw [exec, execCmdlist, gated_of_open hs ha, stream_eq hs cmdMarker hlen]
  exact finish_runPlan_idle hbus false

/-- Settles O31: FLUSH's body runs FLUSH's plan, whose bytes are the whole allocated store. -/
theorem flushSendsWindowThenFrame : Obligations.FlushSendsWindowThenFrame := by
  intro s hs ha hbus
  have hbytes : s.fbBytes = (List.range (s.w.toNat * s.h.toNat / 8)).map s.fb.read := by
    rw [State.fbBytes, fbSize_of_allocated ha.2]
  rw [exec, execFlush, gated_of_open hs ha, flushBody_eq hs, hbytes]
  exact finish_runPlan_idle hbus false

/-- Settles O40: past its checks INIT runs INIT's plan from the state it has written. -/
theorem initBringsTheDisplayUp : Obligations.InitBringsTheDisplayUp := by
  intro s width height addr hs hi hf hl hg halloc hsize hbus
  obtain ⟨-, -, hseg, -, -⟩ := hi
  rw [exec, execInit_eq hs, if_neg (not_not_intro hg), if_neg (by simp [hf]), if_neg (not_not_intro hl),
    if_pos ⟨halloc, hsize⟩, bringUp_afterAlloc hs hseg hg]
  exact finish_runPlan hbus true

/-! ### Streams without chunking -/

theorem chunkPlan_unchunked_nil (p : Params) (hp : p.chunkEnable = false) (marker : Byte) :
    chunkPlan p marker [] = [] := by
  simp [chunkPlan, chunkCount, chunkSize, hp]

/-- Without chunking a nonempty stream is one chunk (rule R81). -/
theorem chunkPlan_unchunked {p : Params} (hp : p.chunkEnable = false) (marker : Byte) {bytes : List Byte}
    (hb : bytes ≠ []) : chunkPlan p marker bytes = [marker :: bytes] := by
  have hpos : 0 < bytes.length := List.length_pos_iff.2 hb
  have hsize : chunkSize p bytes.length = bytes.length := by
    rw [chunkSize, if_neg (by simp [hp]), Nat.max_eq_left hpos]
  have hcount : chunkCount p bytes.length = 1 := by
    rw [chunkCount, hsize]
    exact Nat.div_eq_of_lt_le (by omega) (by omega)
  rw [chunkPlan, hcount, hsize]
  simp

theorem not_runsToEnd_one {s : State} : ¬s.RunsToEnd 1 ↔ s.params.onBusFail = .abortOp ∧ s.reply 0 = false := by
  cases hp : s.params.onBusFail <;> simp [State.RunsToEnd, hp]

/-- Settles O36: the plan is empty, or the one transaction, which the bus policy then lets go on or aborts. -/
theorem unchunkedStreamIsOneTransaction : Obligations.UnchunkedStreamIsOneTransaction := by
  intro s marker hp
  have hs : s.Configured := fun h => by simp [hp] at h
  constructor
  · rw [stream_eq hs marker (by simp), chunkPlan_unchunked_nil _ hp]
    rfl
  · intro bytes hb hlen hbus
    have hstream : stream marker bytes s = (transact (marker :: bytes) s).mapState (·.setSeg none) := by
      rw [stream_eq hs marker hlen, chunkPlan_unchunked hp marker hb, runPlan_singleton]
    refine ⟨_, rfl, fun hr => ?_, fun hr => ?_, ?_, rfl⟩
    · rw [hstream, transact_eq hbus, if_neg fun h => not_runsToEnd_one.2 h hr]
      rfl
    · rw [hstream, transact_eq hbus, if_pos (not_runsToEnd_one.1 hr)]
      rfl
    · rw [State.setSeg_txns, State.afterPlan_txns, State.records_one]

end Sys2Proof.Machine
end

section
/-! PROOFS. The memory family: the page-packed layout is one to one, SETPX writes its pixel and nothing else, and no
step names a byte outside the frame store (rules R32 to R36, R40, R66). -/

namespace Sys2Proof.Machine

open Sys2Proof

/-! ### The page-packed layout -/

/-- A byte index gives back its column (rule R36). -/
theorem pixelIndex_mod {w x : Nat} (hx : x < w) (y : Nat) : pixelIndex w x y % w = x := by
  rw [pixelIndex, Nat.add_mul_mod_self_right, Nat.mod_eq_of_lt hx]

/-- A byte index gives back its page (rule R36). -/
theorem pixelIndex_div {w x : Nat} (hx : x < w) (y : Nat) : pixelIndex w x y / w = y / 8 := by
  rw [pixelIndex, Nat.add_mul_div_right _ _ (by omega), Nat.div_eq_of_lt hx, Nat.zero_add]

/-- The pixel of a byte and a bit lies in that byte (rule R36). -/
theorem pixelIndex_of_byte (w i : Nat) {k : Nat} (hk : k < 8) : pixelIndex w (i % w) (8 * (i / w) + k) = i := by
  have hpage : (8 * (i / w) + k) / 8 = i / w := by omega
  rw [pixelIndex, hpage, Nat.mod_add_div']

/-- `d` pages down a column lie `d * w` bytes on (rule R36). -/
theorem pixelIndex_add_pages (w x y d : Nat) : pixelIndex w x (y + 8 * d) = pixelIndex w x y + d * w := by
  rw [pixelIndex, pixelIndex, Nat.add_mul_div_left _ _ (by decide), Nat.add_mul, Nat.add_assoc]

theorem pixelBit_add_pages (y d : Nat) : pixelBit (y + 8 * d) = pixelBit y :=
  Nat.add_mul_mod_self_left y 8 d

theorem pixelBit_of_byte (p : Nat) {k : Nat} (hk : k < 8) : pixelBit (8 * p + k) = k := by
  rw [pixelBit, Nat.mul_add_mod, Nat.mod_eq_of_lt hk]

/-- Settles O23: an index divided by the width is the page, with the column as the remainder; the row is the page and
the bit. -/
theorem layoutIsABijection : Obligations.LayoutIsABijection := by
  intro w pages _
  refine ⟨fun x y hx hy => ?_, fun i k hi hk => ?_, fun x y d => ?_⟩
  · have hlt := pixelIndex_lt hx hy (Nat.mul_mod_right 8 pages)
    rw [Nat.mul_left_comm, Nat.mul_div_cancel_left _ (by decide)] at hlt
    rw [pixelIndex_mod hx, pixelIndex_div hx]
    exact ⟨hlt, pixelBit_lt y, rfl, Nat.div_add_mod y 8⟩
  · have hpage : i / w < pages := Nat.div_lt_of_lt_mul hi
    exact ⟨Nat.mod_lt i (by omega), by omega, pixelIndex_of_byte w i hk, pixelBit_of_byte _ hk⟩
  · exact ⟨pixelBit_add_pages y d, pixelIndex_add_pages w x y d⟩

/-! ### Pixel operations in range -/

/-- SETPX in range writes the byte of its pixel and answers 0 (rule R66). -/
theorem exec_setpx_of_holds {s : State} (hs : s.Configured) (hi : s.Inv) (ha : s.Allocated) {x y : Field16}
    (h : s.Holds x.toInt y.toInt) (on : Bool) :
    exec (.setpx x y on) s =
      .next ((s.setFb (s.fb.write (pixelIndex s.w.toNat x.toInt.toNat y.toInt.toNat)
        (putBit (s.fb.read (pixelIndex s.w.toNat x.toInt.toNat y.toInt.toNat))
          (pixelBit y.toInt.toNat) on))).respond false) := by
  obtain ⟨hx, hy⟩ := h.toNat
  rw [exec, execSetpx, gated_of_open hs ha, coord, coord, if_pos (inRange_eq_true.2 h), writePixel_of_holds hi ha hx hy]

/-- Settles O15: the byte SETPX writes holds its pixel, and every other pixel lies in another byte or another bit. -/
theorem setpxWritesExactlyItsPixel : Obligations.SetpxWritesExactlyItsPixel := by
  intro s x y on hs hi ha h
  have ⟨hx, _⟩ := h.toNat
  have ⟨hx0, _, hy0, _⟩ := h
  have ⟨hwf, _⟩ := hi
  refine ⟨_, exec_setpx_of_holds hs hi ha h on, ?_, fun x' y' hx' _ hne => ?_, rfl⟩
  · exact (pixel_of_write hwf hx on hx).trans (if_pos ⟨rfl, rfl⟩)
  · exact (pixel_of_write hwf hx on hx').trans (if_neg fun he => hne (by omega))

/-- Reading an in-range pixel answers it (rule R69). -/
theorem readPixel_of_holds {s : State} (hi : s.Inv) (ha : s.Allocated) {x y : Nat} (hx : x < s.w.toNat)
    (hy : y < s.h.toNat) : readPixel x y s = .next (s.respond (s.pixel x y)) :=
  if_pos (pixelIndex_lt_fbSize hi ha hx hy)

/-! ### Steps that stop -/

/-- A flow stops only for a transport that never answers (rule R100). -/
theorem Flow.finish_eq_fault {f : Flow} {r : Bool} {e : Fault} (h : f.finish r = .fault e) : e = .transportSilent := by
  cases f with
  | going s => cases h
  | aborted s => cases h
  | waiting => cases h; rfl

/-- A gated operation stops only in its body, with the gate open. -/
theorem gated_eq_fault {i : Instr} {s : State} {body : State → Result} {e : Fault} (h : gated i s body = .fault e) :
    s.Allocated ∧ body s = .fault e := by
  by_cases hs : s.Configured
  · by_cases ha : s.Allocated
    · exact ⟨ha, by rwa [gated_of_open hs ha] at h⟩
    · rw [gated_of_closed hs (not_allocated.1 ha)] at h
      cases h
  · rw [gated_of_not_configured hs] at h
    cases h

/-- A gated pixel operation whose access completes on every pixel in range does not stop (rules R65, R72). -/
theorem gated_clipped_ne_fault {i : Instr} {s : State} {x y : Int} {access : State → Result} {e : Fault}
    (h : s.Allocated → x.toNat < s.w.toNat → y.toNat < s.h.toNat → ∃ t, access s = .next t) :
    gated i s (fun s => if s.inRange x y then access s else finish false s) ≠ .fault e := by
  intro hf
  obtain ⟨ha, hf⟩ := gated_eq_fault hf
  split at hf
  · next hr =>
    obtain ⟨hx, hy⟩ := (inRange_eq_true.1 hr).toNat
    obtain ⟨t, ht⟩ := h ha hx hy
    rw [ht] at hf
    cases hf
  · cases hf

/-- INIT stops only for a transport that never answers. -/
theorem execInit_eq_fault {width height : Field16} {addr : BusAddr} {s : State} {e : Fault}
    (h : execInit width height addr s = .fault e) : e = .transportSilent := by
  by_cases hs : s.Configured
  · rw [execInit_eq hs] at h
    split_ifs at h
    exact Flow.finish_eq_fault h
  · rw [execInit, configured_of_not hs] at h
    cases h

/-- From a state that meets the invariant an operation stops only for a transport that never answers (rules R32,
R100). -/
theorem exec_eq_fault {i : Instr} {s : State} (hi : s.Inv) {e : Fault} (h : exec i s = .fault e) :
    e = .transportSilent := by
  cases i with
  | init width height addr => exact execInit_eq_fault h
  | shutdown =>
    rw [exec, execShutdown] at h
    exact Flow.finish_eq_fault (gated_eq_fault h).2
  | setpx x y on =>
    exact absurd h (gated_clipped_ne_fault fun ha hx hy => ⟨_, writePixel_of_holds hi ha hx hy on⟩)
  | setrgb x y r g b =>
    exact absurd h (gated_clipped_ne_fault fun ha hx hy => ⟨_, writePixel_of_holds hi ha hx hy _⟩)
  | getpx x y => exact absurd h (gated_clipped_ne_fault fun ha hx hy => ⟨_, readPixel_of_holds hi ha hx hy⟩)
  | clear =>
    rw [exec, execClear] at h
    cases (gated_eq_fault h).2
  | flush =>
    rw [exec, execFlush] at h
    exact Flow.finish_eq_fault (gated_eq_fault h).2
  | cmd c =>
    rw [exec, execCmd] at h
    exact Flow.finish_eq_fault (gated_eq_fault h).2
  | cmdlist payload =>
    rw [exec, execCmdlist] at h
    exact Flow.finish_eq_fault (gated_eq_fault h).2

/-- A step stops for what the host presents, or where the operation presented does. -/
theorem step_eq_fault {s : State} {e : Fault} (h : step s = .fault e) :
    e = .strayPayload ∨ e = .awaitingPayload ∨ ∃ i rest, exec i (s.setInputs rest) = .fault e := by
  cases hin : s.inputs with
  | nil =>
    rw [step, fetch, hin] at h
    cases h
  | cons a following =>
    cases a with
    | reset =>
      rw [step, fetch, hin] at h
      cases h
    | payload b =>
      rw [step, fetch, hin] at h
      cases h
      exact .inl rfl
    | op w =>
      rw [step_op hin] at h
      split at h
      · cases h
      · cases hd : decode w following with
        | instr i rest => exact .inr (.inr ⟨i, rest, by simpa [hd] using h⟩)
        | illegalOp => simp [hd] at h
        | reservedBits => simp [hd] at h
        | awaitingPayload => exact .inr (.inl (by simpa [hd] using h.symm))

/-- Settles O55: a step stops for its host's inputs or for its operation, and the invariant leaves an operation only
the silent transport to stop for. -/
theorem noStepLeavesTheFrameStore : Obligations.NoStepLeavesTheFrameStore := by
  intro s hi h
  rcases step_eq_fault h with he | he | ⟨i, rest, hx⟩
  · cases he
  · cases he
  · cases exec_eq_fault (s := s.setInputs rest) hi hx

end Sys2Proof.Machine
end

section
/-! PROOFS. The encoding family: the encoder and the decoder undo each other, which words are refused and why, what a
line of the assembler gives, and the framing of transactions (rules R45 to R61, R76, R98, R100). -/

namespace Sys2Proof

open Sys2Proof.Laws.Encoding (opcodeOf)

/-! ### Fields of an encoded word -/

/-- A field put at its place is read back from there. -/
@[simp] theorem extractLsb'_fieldAt_same {n : Nat} (v : BitVec n) {lo : Nat} (h : lo + n ≤ 64) :
    (fieldAt v lo).extractLsb' lo n = v := by
  apply BitVec.eq_of_getLsbD_eq
  intro k hk
  rw [BitVec.getLsbD_extractLsb', getLsbD_fieldAt, Nat.add_sub_cancel_left]
  simp [-BitVec.getLsbD_eq_getElem, hk, show lo + k < 64 by omega]

/-- A field leaves every place beside its own 0. -/
@[simp] theorem extractLsb'_fieldAt_disjoint {n : Nat} (v : BitVec n) {lo lo' m : Nat}
    (h : lo' + m ≤ lo ∨ lo + n ≤ lo') : (fieldAt v lo).extractLsb' lo' m = 0#m := by
  apply BitVec.eq_of_getLsbD_eq
  intro k hk
  rw [BitVec.getLsbD_extractLsb', getLsbD_fieldAt, BitVec.getLsbD_zero]
  rcases h with h | h
  · simp [show ¬lo ≤ lo' + k by omega]
  · simp [BitVec.getLsbD_of_ge v (lo' + k - lo) (by omega)]

/-- The length field of a CMDLIST's word (rule R51). -/
theorem lowField_cmdlist (payload : List Byte) :
    lowField (encodeWord (.cmdlist payload)) = BitVec.ofNat 16 payload.length := by
  simp [lowField, encodeWord, BitVec.extractLsb'_or]

/-- The operands of a well-formed operation are read back from its word, and its payload from what follows the word
(rules R48 to R54): no two fields of a format overlap, and none overlaps `op`. -/
theorem extractFields_encodeWord {i : Instr} (hi : i.wellFormed = true) (rest : List HostInput) :
    extractFields (opcodeOf i) (encodeWord i) (i.payload.map .payload ++ rest) = .instr i rest := by
  cases i with
  | init width height addr =>
    simp [opcodeOf, extractFields, encodeWord, Instr.payload, lowField, highField, BitVec.extractLsb'_or]
  | shutdown => rfl
  | setpx x y on =>
    have hon : (encodeWord (.setpx x y on)).getLsbD 4 = on := by
      simp [-BitVec.getLsbD_eq_getElem, encodeWord, getLsbD_fieldAt]
    rw [opcodeOf, extractFields, hon]
    simp [encodeWord, Instr.payload, lowField, highField, BitVec.extractLsb'_or]
  | setrgb x y r g b =>
    simp [opcodeOf, extractFields, encodeWord, Instr.payload, lowField, highField, BitVec.extractLsb'_or]
  | getpx x y => simp [opcodeOf, extractFields, encodeWord, Instr.payload, lowField, highField, BitVec.extractLsb'_or]
  | clear => rfl
  | flush => rfl
  | cmd c => simp [opcodeOf, extractFields, encodeWord, Instr.payload, BitVec.extractLsb'_or]
  | cmdlist payload =>
    have hlen : payload.length ≤ 65535 := of_decide_eq_true hi
    have hn : (lowField (encodeWord (.cmdlist payload))).toNat = payload.length := by
      rw [lowField_cmdlist, BitVec.toNat_ofNat, Nat.mod_eq_of_lt (by omega)]
    simp only [opcodeOf, extractFields, hn, Instr.payload, takePayload_map]

/-! ### The encoder and the decoder undo each other -/

/-- The word of every operation belongs to the operation's row. -/
theorem encodeWord_belongs (i : Instr) : Laws.Encoding.Statement i := by
  cases i with
  | init width height addr => exact Laws.Encoding.init width height addr
  | shutdown => exact Laws.Encoding.shutdown
  | setpx x y on => exact Laws.Encoding.setpx x y on
  | setrgb x y r g b => exact Laws.Encoding.setrgb x y r g b
  | getpx x y => exact Laws.Encoding.getpx x y
  | clear => exact Laws.Encoding.clear
  | flush => exact Laws.Encoding.flush
  | cmd c => exact Laws.Encoding.cmd c
  | cmdlist payload => exact Laws.Encoding.cmdlist payload

/-- An operation's word is read by the operation's own format, whatever follows it (rule R57). -/
theorem decode_encodeWord (i : Instr) (following : List HostInput) :
    decode (encodeWord i) following = extractFields (opcodeOf i) (encodeWord i) following := by
  obtain ⟨r, hf, hop, hm⟩ := encodeWord_belongs i
  rw [decode_of_belongs hf hm, hop]

/-- Settles O1: the word belongs to its operation's row, whose format reads back every field. -/
theorem decodeReadsBackEveryEncodedOperation : Obligations.DecodeReadsBackEveryEncodedOperation := by
  intro i rest hi
  rw [decode_encodeWord, extractFields_encodeWord hi]

/-- The operation read from a word is well-formed, since its length comes from 16 bits, and its payload is what was
taken (rules R51, R53). -/
theorem extractFields_payload {op : Opcode} {w : OpWord} {following rest : List HostInput} {i : Instr}
    (h : extractFields op w following = .instr i rest) :
    i.wellFormed = true ∧ following = i.payload.map .payload ++ rest := by
  cases op with
  | cmdlist =>
    rw [extractFields] at h
    split at h
    · next ht =>
      cases h
      obtain ⟨hlen, rfl⟩ := takePayload_some ht
      have hn := (lowField w).isLt
      exact ⟨decide_eq_true (by omega), rfl⟩
    · cases h
  | _ =>
    cases h
    exact ⟨rfl, rfl⟩

/-- Settles O2: the fields and the row's mask cover the word, and the payload is what was taken. -/
theorem everyAcceptedWordEncodesBack : Obligations.EveryAcceptedWordEncodesBack := by
  intro w following i rest h
  obtain ⟨r, -, -, -, hx⟩ := decode_instr h
  obtain ⟨hwf, hrest⟩ := extractFields_payload hx
  exact ⟨hwf, encodeWord_of_decode h, hrest⟩

/-! ### The rows of the opcode table -/

theorem opField_and (v w : OpWord) : opField (v &&& w) = opField v &&& opField w :=
  BitVec.extractLsb'_and ..

/-- Every row's mask covers `op` (rule R57). -/
theorem opField_mask : ∀ r ∈ opcodeTable, opField r.mask = BitVec.allOnes 4 := by
  decide

theorem opField_of_belongs {r : OpcodeRow} (hr : r ∈ opcodeTable) {w : OpWord} (hm : w &&& r.mask = r.pattern) :
    opField w = opField r.pattern := by
  rw [← hm, opField_and, opField_mask r hr, BitVec.and_allOnes]

theorem opField_patterns_distinct : opcodeTable.Pairwise fun r r' => opField r.pattern ≠ opField r'.pattern := by
  decide

/-- Settles O3: a word has the `op` of each row it belongs to, and no two rows share one. -/
theorem opcodeRowsAreDisjoint : Obligations.OpcodeRowsAreDisjoint := by
  refine opField_patterns_distinct.imp_of_mem fun hr hr' hne w hm hm' => hne ?_
  rw [← opField_of_belongs hr hm, opField_of_belongs hr' hm']

/-! ### Which words decoding refuses -/

/-- A word with a legal `op` is read by its row's format or has a reserved bit set (rule R57). -/
theorem decode_of_row {w : OpWord} {r : OpcodeRow} (hf : findRow (opField w) = some r) (following : List HostInput) :
    decode w following =
      if w &&& r.mask = r.pattern then extractFields r.opcode w following else .reservedBits := by
  rw [decode, hf]

/-- Reading the operands refuses nothing. -/
theorem extractFields_ne_refusal (op : Opcode) (w : OpWord) (following : List HostInput) :
    extractFields op w following ≠ .illegalOp ∧ extractFields op w following ≠ .reservedBits := by
  cases op with
  | cmdlist =>
    rw [extractFields]
    split
    · exact ⟨nofun, nofun⟩
    · exact ⟨nofun, nofun⟩
  | _ => exact ⟨nofun, nofun⟩

/-- Decoding answers `ILLEGAL_OP` exactly for the words without a row (rule R56). -/
theorem decode_eq_illegalOp {w : OpWord} {following : List HostInput} :
    decode w following = .illegalOp ↔ opField w = 0#4 ∨ 10 ≤ (opField w).toNat := by
  rcases findRow_cases (opField w) with ⟨hf, hop⟩ | ⟨r, -, hf, -, h1, h9⟩
  · rw [decode, hf]
    exact iff_of_true rfl hop
  · refine iff_of_false ?_ ?_
    · rw [decode_of_row hf]
      split
      · exact (extractFields_ne_refusal r.opcode w following).1
      · exact nofun
    · rintro (h | h)
      · rw [h] at h1
        cases h1
      · omega

/-- Decoding answers `RESERVED_BITS` exactly for the words with a legal `op` that do not belong to its row
(rule R55). -/
theorem decode_eq_reservedBits {w : OpWord} {following : List HostInput} (h1 : 1 ≤ (opField w).toNat)
    (h9 : (opField w).toNat ≤ 9) :
    decode w following = .reservedBits ↔
      ∃ k, k < 64 ∧ Machine.reservedBit (opField w).toNat k = true ∧ w.getLsbD k = true := by
  rcases findRow_cases (opField w) with ⟨-, h | h⟩ | ⟨r, hr, hf, hop, -, -⟩
  · rw [h] at h1
    cases h1
  · omega
  · have hrow : decode w following = .reservedBits ↔ ¬(w &&& r.mask = r.pattern) := by
      rw [decode_of_row hf]
      split
      · next hm => exact iff_of_false (extractFields_ne_refusal r.opcode w following).2 (not_not_intro hm)
      · next hm => exact iff_of_true rfl hm
    rw [hrow, belongs_iff hr hop.symm]
    simp

/-! ### A CMDLIST whose payload stops short -/

/-- A CMDLIST's word with length `n` is the word of any `n` bytes (rule R51). -/
theorem encodeWord_cmdlist_replicate (n : Field16) (b : Byte) :
    encodeWord (.cmdlist (List.replicate n.toNat b)) = n.setWidth 64 <<< 8 ||| 9#64 := by
  rw [encodeWord, List.length_replicate, BitVec.ofNat_toNat, BitVec.setWidth_eq, fieldAt]

theorem decode_cmdlist_short (n : Field16) {bytes : List Byte} {tail : List HostInput} (hlen : bytes.length < n.toNat)
    (htail : ∀ b, tail.head? ≠ some (.payload b)) :
    decode (n.setWidth 64 <<< 8 ||| 9#64) (bytes.map .payload ++ tail) = .awaitingPayload := by
  rw [← encodeWord_cmdlist_replicate n 0#8, decode_encodeWord, opcodeOf, extractFields, lowField_cmdlist,
    List.length_replicate, BitVec.ofNat_toNat, BitVec.setWidth_eq, takePayload_none bytes tail n.toNat hlen htail]

end Sys2Proof

namespace Sys2Proof.Machine

open Sys2Proof

/-! ### Framed transactions -/

theorem ExecBase.params {i : Instr} {s b : State} (h : ExecBase s i b) : b.params = s.params := by
  cases h <;> rfl

/-- Transactions only add framed records (rules R60, R61, R76). -/
theorem BusRunSeg.busInv {b u : State} (h : BusRunSeg b u) (hb : b.BusInv) : u.BusInv := by
  obtain ⟨new, l, n, v, rfl, hn⟩ := h
  intro x hx
  rcases List.mem_append.1 hx with hx | hx
  · exact hb x hx
  · exact (hn x hx).2

/-- Every operation that completes keeps the records framed: what it writes before its transactions is neither a record
nor a parameter. -/
theorem exec_busInv {i : Instr} {s t : State} (hs : s.BusInv) (h : exec i s = .next t) : t.BusInv := by
  obtain ⟨b, u, r, hb, hu, rfl, -, -⟩ := (exec_next h).2.base
  have hbase : b.BusInv := by
    intro x hx
    rw [hb.txns] at hx
    rw [hb.params]
    exact hs x hx
  exact hu.busInv hbase

/-- Settles O54: waiting keeps the records, a reset leaves none, and every operation keeps them framed. -/
theorem stepKeepsTransactionsFramed : Obligations.StepKeepsTransactionsFramed := by
  intro s t hs h
  rcases step_next h with ⟨-, rfl⟩ | ⟨rest, -, rfl⟩ | ⟨w, following, i, rest, -, -, -, hx⟩
  · exact hs
  · exact nofun
  · exact exec_busInv (s := s.setInputs rest) hs hx

/-! ### What an operation and a step refuse -/

theorem Flow.finish_ne_refused (f : Flow) (r : Bool) (e : Refusal) : f.finish r ≠ .refused e := by
  cases f <;> exact nofun

theorem writePixel_ne_refused (x y : Nat) (on : Bool) (s : State) (e : Refusal) :
    writePixel x y on s ≠ .refused e := by
  rw [writePixel]
  split <;> exact nofun

theorem readPixel_ne_refused (x y : Nat) (s : State) (e : Refusal) : readPixel x y s ≠ .refused e := by
  rw [readPixel]
  split <;> exact nofun

/-- A pixel operation refuses only what its access refuses: clipping it is a no-op (rules R65, R72). -/
theorem clipped_ne_refused {inRange : Prop} [Decidable inRange] {s : State} {access : Result} {e : Refusal}
    (h : access ≠ .refused e) : (if inRange then access else finish false s) ≠ .refused e := by
  split
  · exact h
  · exact nofun

/-- In a legal configuration a gated operation is refused only by its body. -/
theorem gated_eq_refused {i : Instr} {s : State} {body : State → Result} {e : Refusal} (hs : s.Configured)
    (h : gated i s body = .refused e) : body s = .refused e := by
  by_cases ha : s.Allocated
  · rwa [gated_of_open hs ha] at h
  · rw [gated_of_closed hs (not_allocated.1 ha)] at h
    cases h

/-- In a legal configuration an operation is refused only for INIT's two reasons (rules R90, R91, R98). -/
theorem exec_eq_refused {i : Instr} {s : State} {e : Refusal} (hs : s.Configured) (h : exec i s = .refused e) :
    e = .badGeometry (encodeWord i) ∨ e = .reinit (encodeWord i) := by
  cases i with
  | init width height addr =>
    rw [exec, execInit_eq hs] at h
    split_ifs at h
    · cases h
      exact .inr rfl
    · exact absurd h (Flow.finish_ne_refused _ _ _)
    · cases h
      exact .inl rfl
  | shutdown =>
    rw [exec, execShutdown] at h
    exact absurd (gated_eq_refused hs h) (Flow.finish_ne_refused _ _ _)
  | setpx x y on =>
    rw [exec, execSetpx] at h
    exact absurd (gated_eq_refused hs h) (clipped_ne_refused (writePixel_ne_refused _ _ _ _ _))
  | setrgb x y r g b =>
    rw [exec, execSetrgb] at h
    exact absurd (gated_eq_refused hs h) (clipped_ne_refused (writePixel_ne_refused _ _ _ _ _))
  | getpx x y =>
    rw [exec, execGetpx] at h
    exact absurd (gated_eq_refused hs h) (clipped_ne_refused (readPixel_ne_refused _ _ _ _))
  | clear =>
    rw [exec, execClear] at h
    cases gated_eq_refused hs h
  | flush =>
    rw [exec, execFlush] at h
    exact absurd (gated_eq_refused hs h) (Flow.finish_ne_refused _ _ _)
  | cmd c =>
    rw [exec, execCmd] at h
    exact absurd (gated_eq_refused hs h) (Flow.finish_ne_refused _ _ _)
  | cmdlist payload =>
    rw [exec, execCmdlist] at h
    exact absurd (gated_eq_refused hs h) (Flow.finish_ne_refused _ _ _)

/-- In a legal configuration a presented word is refused by decoding, or as the INIT it decodes to. -/
theorem step_eq_refused {s : State} {w : OpWord} {following : List HostInput} {e : Refusal} (hs : s.Configured)
    (hin : s.inputs = .op w :: following) (h : step s = .refused e) :
    (decode w following = .illegalOp ∧ e = .illegalOp w) ∨
      (decode w following = .reservedBits ∧ e = .reservedBits w) ∨
      ∃ i rest, decode w following = .instr i rest ∧
        (e = .badGeometry (encodeWord i) ∨ e = .reinit (encodeWord i)) := by
  rw [step_op hin, configBad_eq_false.2 hs] at h
  cases hd : decode w following with
  | instr i rest =>
    rw [hd] at h
    exact .inr (.inr ⟨i, rest, rfl, exec_eq_refused (s := s.setInputs rest) hs h⟩)
  | illegalOp =>
    rw [hd] at h
    cases h
    exact .inl ⟨rfl, rfl⟩
  | reservedBits =>
    rw [hd] at h
    cases h
    exact .inr (.inl ⟨rfl, rfl⟩)
  | awaitingPayload =>
    rw [hd] at h
    cases h

/-- Settles O5: no operation is refused with `ILLEGAL_OP`, so decoding alone says so. -/
theorem illegalOpcodesAreRefused : Obligations.IllegalOpcodesAreRefused := by
  intro s w following hs hin
  constructor
  · intro hop
    rw [step_op hin, configBad_eq_false.2 hs, decode_eq_illegalOp.2 hop]
    rfl
  · intro h
    rcases step_eq_refused hs hin h with ⟨hd, -⟩ | ⟨-, he⟩ | ⟨_, _, -, he | he⟩
    · exact decode_eq_illegalOp.1 hd
    · cases he
    · cases he
    · cases he

/-- Settles O6: no operation is refused with `RESERVED_BITS`, so decoding alone says so. -/
theorem reservedBitsAreRefused : Obligations.ReservedBitsAreRefused := by
  intro s w following hs hin h1 h9
  rw [← decode_eq_reservedBits (following := following) h1 h9]
  constructor
  · intro hd
    rw [step_op hin, configBad_eq_false.2 hs, hd]
    rfl
  · intro h
    rcases step_eq_refused hs hin h with ⟨-, he⟩ | ⟨hd, -⟩ | ⟨_, _, -, he | he⟩
    · cases he
    · exact hd
    · cases he
    · cases he

/-- Settles O11: the step stops where decoding waits for the payload. -/
theorem unfinishedPayloadIsStuck : Obligations.UnfinishedPayloadIsStuck := by
  intro s n bytes tail hs hlen htail hin
  rw [step_op hin, configBad_eq_false.2 hs, decode_cmdlist_short n hlen htail]
  rfl

/-! ### What the assembler gives is well-formed -/

theorem assembleSetpx_wellFormed {x y on : List Char} {i : Instr} (h : assembleSetpx x y on = some i) :
    i.wellFormed = true := by
  obtain ⟨_, -, _, -, _, -, rfl⟩ := by simpa [assembleSetpx, Option.bind_eq_some_iff] using h
  rfl

/-- Every operation of the assembler's table is well-formed: the length of CMDLIST's list is checked (rules R51,
R58). The cases are the table's entries in their order. -/
theorem assembleOp_wellFormed {m : Mnemonic} {ops : List (List Char)} {i : Instr} (h : assembleOp m ops = some i) :
    i.wellFormed = true := by
  unfold assembleOp at h
  split at h
  · obtain ⟨_, -, _, -, _, -, rfl⟩ := by simpa [Option.bind_eq_some_iff] using h
    rfl
  · cases h
    rfl
  · exact assembleSetpx_wellFormed h
  · exact assembleSetpx_wellFormed h
  · exact assembleSetpx_wellFormed h
  · obtain ⟨_, -, _, -, _, -, _, -, _, -, rfl⟩ := by simpa [Option.bind_eq_some_iff] using h
    rfl
  · obtain ⟨_, -, _, -, rfl⟩ := by simpa [Option.bind_eq_some_iff] using h
    rfl
  · cases h
    rfl
  · cases h
    rfl
  · obtain ⟨_, -, rfl⟩ := by simpa [Option.bind_eq_some_iff] using h
    rfl
  · cases h
    rfl
  · cases h
    rfl
  · split at h
    · split at h
      · next hlen =>
        cases h
        exact decide_eq_true hlen
      · cases h
    · cases h
  · cases h

theorem assemble_wellFormed {line : List Char} {i : Instr} (h : assemble line = some i) : i.wellFormed = true := by
  unfold assemble assembleTokens at h
  split at h
  · cases h
  · split at h
    · obtain ⟨ops, -, hop⟩ := Option.bind_eq_some_iff.1 h
      exact assembleOp_wellFormed hop
    · cases h

/-! ### The forms of a line -/

/-- Two ends of a line with the same tokens may replace each other after any beginning. -/
theorem assemble_append_congr (before : List Char) {a b : List Char}
    (h : ∀ read, tokensFrom read a = tokensFrom read b) : assemble (before ++ a) = assemble (before ++ b) :=
  congrArg assembleTokens (tokensFrom_prefix before h [])

theorem isWord_of_mnemonicOf {name : List Char} {m : Mnemonic} (h : mnemonicOf name = some m) : IsWord name := by
  have hwords : ∀ e ∈ spellings, IsWord e.1 := by simp [spellings, IsWord, plain]
  obtain ⟨e, he, -⟩ := Option.map_eq_some_iff.1 h
  obtain rfl : e.1 = name := by simpa using List.find?_some he
  exact hwords e (List.mem_of_find?_eq_some he)

/-- What a line of a mnemonic and its operands assembles to (rule R58). -/
theorem assemble_mnemonic {name : List Char} {m : Mnemonic} (hm : mnemonicOf name = some m) (hl : m ≠ .cmdlist)
    {ops : List (List Char)} (h : ∀ t ∈ ops, IsWord t) : assemble (lineOf name ops) = assembleOp m ops :=
  assemble_lineOf (isWord_of_mnemonicOf hm) hm hl ops h

/-- A value under a range check, then the rest, is the rest under the check. -/
theorem bind_guard {α β : Type} (p : Prop) [Decidable p] (a : α) (f : α → Option β) :
    (if p then some a else none).bind f = if p then f a else none := by
  split <;> rfl

theorem assemble_init {width height addr : List Char} {w h a : Nat} (hw : Spells width w) (hh : Spells height h)
    (ha : Spells addr a) :
    assemble (lineOf ['I', 'N', 'I', 'T'] [width, height, addr]) =
      if w ≤ 65535 ∧ h ≤ 65535 ∧ a ≤ 0x7F
      then some (.init (BitVec.ofNat 16 w) (BitVec.ofNat 16 h) (BitVec.ofNat 7 a)) else none := by
  rw [assemble_mnemonic (m := .init) (by decide) (by decide)
    (by simp [isWord_of_spells hw, isWord_of_spells hh, isWord_of_spells ha])]
  simp only [assembleOp, fieldOperand_of_spells (n := 16) (m := 65535) hw rfl,
    fieldOperand_of_spells (n := 16) (m := 65535) hh rfl, fieldOperand_of_spells (n := 7) (m := 127) ha rfl,
    Option.bind_eq_bind, bind_guard, ← ite_and, Option.pure_def]

/-- The operand `on` as a truth value. -/
theorem ofNat_beq_one {on : Nat} (h : on ≤ 1) : (BitVec.ofNat 1 on == 1#1) = decide (on = 1) := by
  interval_cases on <;> rfl

theorem assembleSetpx_of_spells {tx ty ton : List Char} {x y : Int} {on : Nat} (hx : SpellsInt tx x)
    (hy : SpellsInt ty y) (hon : Spells ton on) :
    assembleSetpx tx ty ton =
      if (-32768 ≤ x ∧ x ≤ 32767) ∧ (-32768 ≤ y ∧ y ≤ 32767) ∧ on ≤ 1
      then some (.setpx (BitVec.ofInt 16 x) (BitVec.ofInt 16 y) (decide (on = 1))) else none := by
  have hbit : ∀ x y : Field16, (if on ≤ 1 then some (Instr.setpx x y (BitVec.ofNat 1 on == 1#1)) else none) =
      if on ≤ 1 then some (.setpx x y (decide (on = 1))) else none := fun x y =>
    ite_congr rfl (fun h => by rw [ofNat_beq_one h]) fun _ => rfl
  simp only [assembleSetpx, coordOperand_of_spells hx, coordOperand_of_spells hy,
    fieldOperand_of_spells (n := 1) (m := 1) hon rfl, Option.bind_eq_bind, bind_guard, ← ite_and, hbit,
    Option.pure_def]

theorem assemble_setpx {tx ty ton : List Char} {x y : Int} {on : Nat} (hx : SpellsInt tx x) (hy : SpellsInt ty y)
    (hon : Spells ton on) :
    assemble (lineOf ['S', 'E', 'T', 'P', 'X'] [tx, ty, ton]) =
      if (-32768 ≤ x ∧ x ≤ 32767) ∧ (-32768 ≤ y ∧ y ≤ 32767) ∧ on ≤ 1
      then some (.setpx (BitVec.ofInt 16 x) (BitVec.ofInt 16 y) (decide (on = 1))) else none := by
  rw [assemble_mnemonic (m := .setpx) (by decide) (by decide)
    (by simp [isWord_of_spellsInt hx, isWord_of_spellsInt hy, isWord_of_spells hon]), assembleOp,
    assembleSetpx_of_spells hx hy hon]

theorem assemble_setrgb {tx ty tr tg tb : List Char} {x y : Int} {r g b : Nat} (hx : SpellsInt tx x)
    (hy : SpellsInt ty y) (hr : Spells tr r) (hg : Spells tg g) (hb : Spells tb b) :
    assemble (lineOf ['S', 'E', 'T', 'R', 'G', 'B'] [tx, ty, tr, tg, tb]) =
      if (-32768 ≤ x ∧ x ≤ 32767) ∧ (-32768 ≤ y ∧ y ≤ 32767) ∧ r ≤ 255 ∧ g ≤ 255 ∧ b ≤ 255
      then some (.setrgb (BitVec.ofInt 16 x) (BitVec.ofInt 16 y) (BitVec.ofNat 8 r) (BitVec.ofNat 8 g)
        (BitVec.ofNat 8 b))
      else none := by
  rw [assemble_mnemonic (m := .setrgb) (by decide) (by decide)
    (by simp [isWord_of_spellsInt hx, isWord_of_spellsInt hy, isWord_of_spells hr, isWord_of_spells hg,
      isWord_of_spells hb])]
  simp only [assembleOp, coordOperand_of_spells hx, coordOperand_of_spells hy,
    fieldOperand_of_spells (n := 8) (m := 255) hr rfl, fieldOperand_of_spells (n := 8) (m := 255) hg rfl,
    fieldOperand_of_spells (n := 8) (m := 255) hb rfl, Option.bind_eq_bind, bind_guard, ← ite_and, Option.pure_def]

theorem assemble_getpx {tx ty : List Char} {x y : Int} (hx : SpellsInt tx x) (hy : SpellsInt ty y) :
    assemble (lineOf ['G', 'E', 'T', 'P', 'X'] [tx, ty]) =
      if (-32768 ≤ x ∧ x ≤ 32767) ∧ (-32768 ≤ y ∧ y ≤ 32767)
      then some (.getpx (BitVec.ofInt 16 x) (BitVec.ofInt 16 y)) else none := by
  rw [assemble_mnemonic (m := .getpx) (by decide) (by decide)
    (by simp [isWord_of_spellsInt hx, isWord_of_spellsInt hy])]
  simp only [assembleOp, coordOperand_of_spells hx, coordOperand_of_spells hy, Option.bind_eq_bind, bind_guard,
    ← ite_and, Option.pure_def]

theorem assemble_cmd {tc : List Char} {c : Nat} (hc : Spells tc c) :
    assemble (lineOf ['C', 'M', 'D'] [tc]) = if c ≤ 255 then some (.cmd (BitVec.ofNat 8 c)) else none := by
  rw [assemble_mnemonic (m := .cmd) (by decide) (by decide) (by simp [isWord_of_spells hc])]
  simp only [assembleOp, fieldOperand_of_spells (n := 8) (m := 255) hc rfl, Option.bind_eq_bind, bind_guard,
    Option.pure_def]

theorem assemble_cmdlist_of_spells {texts : List (List Char)} {values : List Nat}
    (h : List.Forall₂ Spells texts values) :
    assemble (['C', 'M', 'D', 'L', 'I', 'S', 'T', ' ', '['] ++ operandText texts ++ [']']) =
      if (∀ b ∈ values, b ≤ 255) ∧ values.length ≤ 65535
      then some (.cmdlist (values.map (BitVec.ofNat 8))) else none := by
  rw [assemble_cmdlist texts (isWord_of_forall₂ h), assembleOp, mapM_fieldOperand_of_spells h, ite_and]
  by_cases hb : ∀ b ∈ values, b ≤ 255
  · rw [if_pos hb, if_pos hb]
    simp only [List.length_map]
  · rw [if_neg hb, if_neg hb]

/-- Settles O7: what the assembler's table gives is well-formed, so O1 applies to it; a line counts by its tokens; and
each form by what its operands spell. -/
theorem assembledOperationsAreWellFormed : Obligations.AssembledOperationsAreWellFormed := by
  refine ⟨?_, ?_, ?_, ?_, by decide, ?_, ?_, ?_, by decide, by decide, ?_, ?_⟩
  · intro line i rest h
    have hi := assemble_wellFormed h
    exact ⟨hi, decodeReadsBackEveryEncodedOperation i rest hi⟩
  · intro line comment h
    rw [assemble, tokensFrom_comment line comment [] h, assemble]
  · intro before after
    exact ⟨assemble_append_congr before fun _ => rfl, assemble_append_congr before fun _ => rfl,
      assemble_append_congr before fun _ => rfl⟩
  · exact fun _ _ _ _ _ _ hw hh ha => assemble_init hw hh ha
  · exact fun _ _ _ _ _ _ hx hy hon => assemble_setpx hx hy hon
  · exact fun _ _ _ _ _ _ _ _ _ _ hx hy hr hg hb => assemble_setrgb hx hy hr hg hb
  · exact fun _ _ _ _ hx hy => assemble_getpx hx hy
  · exact fun _ _ hc => assemble_cmd hc
  · exact fun _ _ h => assemble_cmdlist_of_spells h

/-! ### Pseudo-operations -/

/-- A stream of one byte that ends was answered (rule R100). -/
theorem answersFirst_of_finish_stream {s t : State} (hs : s.Configured) {marker c : Byte} {r : Bool}
    (h : (stream marker [c] s).finish r = .next t) : s.AnswersFirst 1 := by
  intro a ha hnever
  cases hb : s.busAnswers with
  | nil => simp [hb] at ha
  | cons b rest =>
    obtain rfl : a = b := by simpa [hb] using ha
    rw [stream_one hs, transact_of_never (hnever ▸ hb)] at h
    cases h

/-- CMD never changes `LIFE` (rule R59): of the lifecycle's table only INIT and SHUTDOWN do. -/
theorem exec_cmd_life {c : Byte} {s t : State} (h : exec (.cmd c) s = .next t) : t.life = s.life := by
  rcases (lifecycleFollowsItsTable _ s t h).1 with hl | ⟨-, -, -, _, _, _, hi⟩ | ⟨-, -, -, hi⟩
  · exact hl
  · cases hi
  · cases hi

/-- From an active state display-off sent by CMD and by SHUTDOWN leaves the same records but not the same `LIFE`
(rule R59). -/
theorem dispoff_differs_from_shutdown {s t u : State} (hf : s.allocFail = false) (hl : s.life = .active)
    (ht : exec (.cmd 0xAE#8) s = .next t) (hu : exec .shutdown s = .next u) : u.life ≠ t.life ∧ u.txns = t.txns := by
  have hs : s.Configured := (exec_next ht).1
  have ha : s.Allocated := ⟨hf, by simp [hl]⟩
  have hbus : s.AnswersFirst 1 := by
    have hstream := ht
    rw [exec, execCmd, gated_of_open hs ha] at hstream
    exact answersFirst_of_finish_stream hs hstream
  rw [cmdSendsOneTransaction s 0xAE#8 hs ha hbus] at ht
  rw [shutdownTurnsTheDisplayOff s hs ha hbus] at hu
  cases ht
  cases hu
  exact ⟨by simp [hl], rfl⟩

/-- SETPX and CLRPX with two coordinates assemble as SETPX with the digit 1 and the digit 0 (rule R59). -/
theorem assemble_two_coordinates {tx ty : List Char} {x y : Int} (hx : SpellsInt tx x) (hy : SpellsInt ty y) :
    assemble (lineOf ['S', 'E', 'T', 'P', 'X'] [tx, ty]) = assembleSetpx tx ty ['1'] ∧
      assemble (lineOf ['C', 'L', 'R', 'P', 'X'] [tx, ty]) = assembleSetpx tx ty ['0'] := by
  have hwords : ∀ t ∈ [tx, ty], IsWord t := by simp [isWord_of_spellsInt hx, isWord_of_spellsInt hy]
  exact ⟨assemble_mnemonic (m := .setpx) (by decide) (by decide) hwords,
    assemble_mnemonic (m := .clrpx) (by decide) (by decide) hwords⟩

/-- SETPX with two coordinates and a third operand of one character. -/
theorem assemble_setpx_digit {tx ty : List Char} {x y : Int} (hx : SpellsInt tx x) (hy : SpellsInt ty y) {c : Char}
    (hc : plain c = true) :
    assemble (lineOf ['S', 'E', 'T', 'P', 'X'] [tx, ty, [c]]) = assembleSetpx tx ty [c] := by
  have hword : IsWord [c] := ⟨by simp, by simpa using hc⟩
  exact assemble_mnemonic (m := .setpx) (by decide) (by decide)
    (by simp [isWord_of_spellsInt hx, isWord_of_spellsInt hy, hword])

/-- Settles O8: the table's entries are the expansions, lines are read by them, and CMD's outcome is O28's. -/
theorem pseudoOperationsExpand : Obligations.PseudoOperationsExpand := by
  refine ⟨fun _ _ => rfl, fun _ _ => rfl, rfl, rfl, ?_, by decide, by decide, ?_, fun _ _ => exec_cmd_life,
    fun _ _ => exec_cmd_life, fun _ _ _ => dispoff_differs_from_shutdown⟩
  · intro tx ty x y hx hy
    obtain ⟨hset, hclr⟩ := assemble_two_coordinates hx hy
    exact ⟨hset.trans (assemble_setpx_digit hx hy (by decide)).symm,
      hclr.trans (assemble_setpx_digit hx hy (by decide)).symm⟩
  · intro s c _ hs ha hbus
    exact ⟨_, cmdSendsOneTransaction s c hs ha hbus, rfl, rfl⟩

end Sys2Proof.Machine
end

section
/-! PROOFS. The frame-store family: what SETPX, SETRGB, GETPX and CLEAR do with the gate open or closed and the pixel in
range or not, and the colour reduction (rules R65 to R74, R99). -/

namespace Sys2Proof.Machine

open Sys2Proof

/-! ### The colour reduction -/

/-- A byte is above 127 exactly when its top bit is 1. -/
theorem lt_toNat_iff_msb (b : Byte) : 127 < b.toNat ↔ b.msb = true := by
  rw [BitVec.msb_eq_true_iff_two_mul_ge]
  omega

/-- Some channel above 127 is the same as the channels' OR above 127 (rule R67): both say that a top bit is 1. -/
theorem lt_toNat_or_iff (r g b : Byte) :
    127 < (r ||| g ||| b).toNat ↔ 127 < r.toNat ∨ 127 < g.toNat ∨ 127 < b.toNat := by
  simp only [lt_toNat_iff_msb, BitVec.msb_or, Bool.or_eq_true, or_assoc]

/-- The OR of C_PREC is not 0 exactly when one of its three operands is not 0 (rule R67). -/
theorem cPrec_ne_zero_iff (r g b : Byte) :
    r ||| g ||| (if 127 < b.toNat then 1#8 else 0#8) ≠ 0#8 ↔ r ≠ 0#8 ∨ g ≠ 0#8 ∨ 127 < b.toNat := by
  have hb : (if 127 < b.toNat then 1#8 else 0#8) = 0#8 ↔ ¬127 < b.toNat := by
    split_ifs with h <;> simp [h]
  rw [ne_eq, BitVec.or_eq_zero_iff, BitVec.or_eq_zero_iff, hb]
  tauto

/-- Settles O19: each reading is the definition's own test, and the OR of bytes is read bit by bit. -/
theorem monoFollowsItsRule : Obligations.MonoFollowsItsRule := by
  intro r g b
  refine ⟨decide_eq_true_iff, decide_eq_true_iff, ?_, decide_eq_true_iff, ?_⟩
  · exact decide_eq_true_iff.trans (lt_toNat_or_iff r g b)
  · exact decide_eq_true_iff.trans (cPrec_ne_zero_iff r g b)

/-! ### Pixel operations out of range or with the gate closed -/

/-- A gated pixel operation is a no-op with the gate closed or the pixel out of range (rules R65, R89, R99). -/
theorem gated_clipped_noop {s : State} (hs : s.Configured) {x y : Int} (h : ¬(s.Allocated ∧ s.Holds x y)) (i : Instr)
    (access : State → Result) :
    gated i s (fun s => if s.inRange x y then access s else finish false s) = .next (s.respond false) := by
  by_cases ha : s.Allocated
  · rw [gated_of_open hs ha, if_neg fun hr => h ⟨ha, inRange_eq_true.1 hr⟩]
    rfl
  · exact gated_of_closed hs (not_allocated.1 ha) i _

/-- SETPX out of range or with the gate closed is a no-op (rules R72, R89). -/
theorem exec_setpx_noop {s : State} (hs : s.Configured) {x y : Field16}
    (h : ¬(s.Allocated ∧ s.Holds x.toInt y.toInt)) (on : Bool) :
    exec (.setpx x y on) s = .next (s.respond false) :=
  gated_clipped_noop hs h _ _

/-- Settles O21: the gate's no-op and the clip's both answer 0. -/
theorem getpxAnswersZeroElsewhere : Obligations.GetpxAnswersZeroElsewhere := by
  intro s x y hs h
  exact gated_clipped_noop hs h _ _

/-- SETRGB is SETPX of the reduced colour, whatever the gate and the range (rule R68). -/
theorem exec_setrgb_eq_setpx {s : State} (hs : s.Configured) (x y : Field16) (r g b : Byte) :
    exec (.setrgb x y r g b) s = exec (.setpx x y (mono s.params.monoRule r g b)) s := by
  rw [exec, exec, execSetrgb, execSetpx]
  by_cases ha : s.Allocated
  · rw [gated_of_open hs ha, gated_of_open hs ha]
  · rw [gated_of_closed hs (not_allocated.1 ha), gated_of_closed hs (not_allocated.1 ha)]

/-- GETPX never changes the frame store (rule R72): it answers, or it is a no-op. -/
theorem exec_getpx_fb {s t : State} {x y : Field16} (h : exec (.getpx x y) s = .next t) : t.fb = s.fb := by
  cases (exec_next h).2 with
  | noop => exact State.respond_fb s _
  | read => exact State.respond_fb s _

/-- Settles O17: out of range SETPX is a no-op and SETRGB is SETPX. -/
theorem clippedPixelOperationsChangeNothing : Obligations.ClippedPixelOperationsChangeNothing := by
  refine ⟨fun s x y on hs h => ?_, fun s x y r g b hs h => ?_, fun s t x y => exec_getpx_fb⟩
  · exact exec_setpx_noop hs (fun hr => h hr.2) on
  · rw [exec_setrgb_eq_setpx hs]
    exact exec_setpx_noop hs (fun hr => h hr.2) _

/-! ### Pixel operations in range -/

/-- Settles O16: the byte written is read back, and every other byte is left alone. -/
theorem setpxWritesItsByte : Obligations.SetpxWritesItsByte := by
  intro s x y on hs hi ha h
  have ⟨hwf, _⟩ := hi
  refine ⟨_, exec_setpx_of_holds hs hi ha h on, ?_, fun i hne => Memory.read_write_other hne _ _⟩
  exact Memory.read_write_same hwf _ _

/-- Settles O18: SETRGB is SETPX of the reduced colour, whose pixel O15 gives and whose byte O16. -/
theorem setrgbActsAsSetpxOfMono : Obligations.SetrgbActsAsSetpxOfMono := by
  intro s x y r g b hs hi ha h
  have heq := exec_setrgb_eq_setpx hs x y r g b
  obtain ⟨m, hm, -, hother⟩ := setpxWritesItsByte s x y (mono s.params.monoRule r g b) hs hi ha h
  obtain ⟨t, ht, hpixel, hpixels, hframe⟩ :=
    setpxWritesExactlyItsPixel s x y (mono s.params.monoRule r g b) hs hi ha h
  obtain rfl : (s.setFb m).respond false = t := Host.Outcome.next.inj (hm.symm.trans ht)
  exact ⟨heq, _, heq.trans ht, hpixel, hpixels, hother, hframe⟩

/-- GETPX in range answers its pixel (rule R69). -/
theorem exec_getpx_of_holds {s : State} (hs : s.Configured) (hi : s.Inv) (ha : s.Allocated) {x y : Field16}
    (h : s.Holds x.toInt y.toInt) :
    exec (.getpx x y) s = .next (s.respond (s.pixel x.toInt.toNat y.toInt.toNat)) := by
  obtain ⟨hx, hy⟩ := h.toNat
  rw [exec, execGetpx, gated_of_open hs ha, coord, coord, if_pos (inRange_eq_true.2 h), readPixel_of_holds hi ha hx hy]

/-- Settles O20: the pixel is the bit of the byte that the rule names. -/
theorem getpxAnswersItsPixel : Obligations.GetpxAnswersItsPixel :=
  fun _ _ _ hs hi ha h => exec_getpx_of_holds hs hi ha h

/-- Of two SETPX on one in-range pixel the last writes the frame store, as if the first had not run. -/
theorem exec_setpx_setpx {s : State} (hs : s.Configured) (hi : s.Inv) (ha : s.Allocated) {x y : Field16}
    (h : s.Holds x.toInt y.toInt) (on on' : Bool) :
    ∃ t, exec (.setpx x y on) s = .next t ∧
      exec (.setpx x y on') t =
        .next (((s.setFb (s.fb.write (pixelIndex s.w.toNat x.toInt.toNat y.toInt.toNat)
          (putBit (s.fb.read (pixelIndex s.w.toNat x.toInt.toNat y.toInt.toNat))
            (pixelBit y.toInt.toNat) on'))).respond false).respond false) := by
  have ⟨hwf, _⟩ := hi
  have ht := exec_setpx_of_holds hs hi ha h on
  refine ⟨_, ht, (exec_setpx_of_holds ?_ (exec_inv hi ht) ?_ ?_ on').trans ?_⟩
  · exact hs
  · exact ha
  · exact h
  · simp only [State.respond_fb, State.respond_w, State.setFb_fb, State.setFb_w, Memory.read_write_same hwf,
      Memory.write_write_same hwf, putBit_putBit _ (pixelBit_lt _)]
    rfl

/-- Settles O24: the pair is one clearing of the pixel's bit, which changes nothing if the bit was 0. -/
theorem setThenClearUndoes : Obligations.SetThenClearUndoes := by
  intro s x y hs hi ha h
  have ⟨hwf, _⟩ := hi
  obtain ⟨hx, _⟩ := h.toNat
  obtain ⟨t, ht, hu⟩ := exec_setpx_setpx hs hi ha h true false
  refine ⟨t, _, ht, hu, fun hoff => ?_, fun _ => ?_, fun k _ hk => ?_⟩
  · rw [State.respond_fb, State.respond_fb, State.setFb_fb, ← hoff, State.pixel, putBit_self _ (pixelBit_lt _),
      Memory.write_read_self hwf]
  · exact (pixel_of_write hwf hx false hx).trans (if_pos ⟨rfl, rfl⟩)
  · rw [State.respond_fb, State.respond_fb, State.setFb_fb, Memory.read_write_same hwf, ← takeBit_eq_getLsbD,
      ← takeBit_eq_getLsbD, takeBit_putBit_other _ (pixelBit_lt _) hk]

/-! ### CLEAR -/

/-- The frame store of a state whose gate is closed holds no byte other than `0x00` (rules R18, R24). -/
theorem fb_of_closed {s : State} (hi : s.Inv) (h : s.allocFail = true ∨ s.life = .uninit) : s.fb = [] := by
  obtain ⟨-, hbelow, -, hfail, -⟩ := hi
  have hl : s.life = .uninit := h.elim hfail id
  have hsize : s.fbSize = 0 := if_pos hl
  rw [← Memory.clearBelow_of_below hbelow, hsize]
  simp [Memory.clearBelow]

/-- CLEAR leaves no byte other than `0x00`, the frame store allocated or not (rules R70, R73). -/
theorem exec_clear {s : State} (hs : s.Configured) (hi : s.Inv) :
    exec .clear s = .next ((s.setFb []).respond false) := by
  have ⟨_, hbelow, _⟩ := hi
  rw [exec, execClear]
  by_cases ha : s.Allocated
  · rw [gated_of_open hs ha, Memory.clearBelow_of_below hbelow]
    rfl
  · rw [gated_of_closed hs (not_allocated.1 ha), ← fb_of_closed hi (not_allocated.1 ha)]
    rfl

/-- A memory whose listed indices lie below the size reads `0x00` from the size on. -/
theorem Memory.read_of_below {size i : Nat} {m : Memory} (hm : m.below size = true) (hi : size ≤ i) :
    m.read i = 0 := by
  have h := Memory.read_clearBelow size i m
  rw [Memory.clearBelow_of_below hm, if_neg (by omega)] at h
  exact h.symm

/-- Settles O22: the frame store is empty after CLEAR, and every byte from `FB_SIZE` on was `0x00` before. -/
theorem clearTurnsEveryPixelOff : Obligations.ClearTurnsEveryPixelOff := by
  intro s hs hi
  have ⟨_, hbelow, _⟩ := hi
  refine ⟨_, exec_clear hs hi, fun x y _ _ => ?_, fun i _ => rfl, fun i hle => ?_, rfl⟩
  · rw [State.pixel, takeBit_eq_getLsbD]
    exact BitVec.getLsbD_zero
  · exact (Memory.read_of_below hbelow hle).symm

/-! ### The Frame Store's operations and the bus -/

/-- SETPX completes, and changes the frame store's bytes and the responses only (rules R66, R74). -/
theorem exec_setpx_completes {s : State} (hs : s.Configured) (hi : s.Inv) (x y : Field16) (on : Bool) :
    ∃ m r, exec (.setpx x y on) s = .next ((s.setFb m).respond r) := by
  by_cases h : s.Allocated ∧ s.Holds x.toInt y.toInt
  · exact ⟨_, _, exec_setpx_of_holds hs hi h.1 h.2 on⟩
  · exact ⟨s.fb, _, exec_setpx_noop hs h on⟩

/-- GETPX completes, and changes the responses only (rules R69, R74). -/
theorem exec_getpx_completes {s : State} (hs : s.Configured) (hi : s.Inv) (x y : Field16) :
    ∃ r, exec (.getpx x y) s = .next (s.respond r) := by
  by_cases h : s.Allocated ∧ s.Holds x.toInt y.toInt
  · exact ⟨_, exec_getpx_of_holds hs hi h.1 h.2⟩
  · exact ⟨_, getpxAnswersZeroElsewhere s x y hs h⟩

/-- Settles O25: each of the four completes with at most the frame store's bytes and the responses changed. -/
theorem frameStoreOperationsEmitNothing : Obligations.FrameStoreOperationsEmitNothing := by
  intro s x y on r g b hs hi i hmem
  suffices h : ∃ m v, exec i s = .next ((s.setFb m).respond v) by
    obtain ⟨m, v, he⟩ := h
    exact ⟨_, he, rfl, rfl, rfl⟩
  simp only [List.mem_cons, List.not_mem_nil, or_false] at hmem
  rcases hmem with rfl | rfl | rfl | rfl
  · exact exec_setpx_completes hs hi x y on
  · rw [exec_setrgb_eq_setpx hs]
    exact exec_setpx_completes hs hi x y _
  · exact ⟨s.fb, exec_getpx_completes hs hi x y⟩
  · exact ⟨[], false, exec_clear hs hi⟩

end Sys2Proof.Machine
end

section
/-! PROOFS. The command-engine family: the chunks a stream is cut into, the plans of the operations that send
transactions, and what the bus makes of them (rules R75 to R86, R98, R100, R124). -/

namespace Sys2Proof.Machine

open Sys2Proof

/-! ### The configuration check and the window -/

/-- Settles O44: with chunking on and `M < 2` no state is configured, which both the operation and the step check
first. -/
theorem badConfigRefusesEveryOperation : Obligations.BadConfigRefusesEveryOperation := by
  intro s hc hm
  have hs : ¬s.Configured := fun h => by
    have := h hc
    omega
  refine ⟨exec_of_not_configured hs, fun w following hin => ?_⟩
  rw [step_op hin, if_pos (configBad_eq_true.2 hs)]

/-- Settles O32: the bounds of a legal geometry keep both numbers below 256. -/
theorem windowNumbersFitTheirBytes : Obligations.WindowNumbersFitTheirBytes := by
  intro s ⟨_, hw, _, hh, _⟩
  have hw255 : s.w.toNat - 1 ≤ 255 := by omega
  have hh31 : s.h.toNat / 8 - 1 ≤ 31 := by omega
  refine ⟨rfl, rfl, ?_, hw255, hh31⟩
  have hwmod : (s.w.toNat - 1) % 2 ^ 8 = s.w.toNat - 1 := Nat.mod_eq_of_lt (by omega)
  have hhmod : (s.h.toNat / 8 - 1) % 2 ^ 8 = s.h.toNat / 8 - 1 := Nat.mod_eq_of_lt (by omega)
  simp only [State.window, List.map_cons, List.map_nil, BitVec.toNat_ofNat, hwmod, hhmod]

/-! ### The number of chunks -/

/-- Chunk `j` is one of the stream's exactly if the stream holds a byte at `j * P` (rule R78). -/
theorem lt_chunkCount {p : Params} {len : Nat} (hc : 1 ≤ chunkSize p len) (j : Nat) :
    j < chunkCount p len ↔ j * chunkSize p len < len := by
  rw [chunkCount, ← Nat.succ_le_iff, Nat.le_div_iff_mul_le hc, Nat.succ_mul]
  omega

/-- The chunks cover the stream (rule R78). -/
theorem le_chunkCount_mul {p : Params} {len : Nat} (hc : 1 ≤ chunkSize p len) :
    len ≤ chunkCount p len * chunkSize p len :=
  Nat.le_of_not_lt fun h => lt_irrefl _ ((lt_chunkCount hc _).2 h)

theorem chunkCount_chunked {p : Params} (hp : p.chunkEnable = true) (len : Nat) :
    chunkCount p len = (len + (p.maxTxn - 1) - 1) / (p.maxTxn - 1) := by
  rw [chunkCount, chunkSize, if_pos hp]

theorem chunkCount_zero {p : Params} (hc : 1 ≤ chunkSize p 0) : chunkCount p 0 = 0 :=
  Nat.eq_zero_of_not_pos fun h => Nat.not_lt_zero _ ((lt_chunkCount hc 0).1 h)

/-- Without chunking a nonempty stream is one transaction (rule R81). -/
theorem chunkCount_unchunked {p : Params} (hp : p.chunkEnable = false) {len : Nat} (hlen : 1 ≤ len) :
    chunkCount p len = 1 := by
  have hne : List.replicate len 0x00#8 ≠ [] := by simp; omega
  have h := congrArg List.length (chunkPlan_unchunked hp 0x00#8 hne)
  rwa [chunkPlan_length, List.length_replicate, List.length_singleton] at h

theorem chunkCount_pos {s : State} (hs : s.Configured) {len : Nat} (hlen : 1 ≤ len) : 0 < chunkCount s.params len :=
  (lt_chunkCount (chunkSize_pos hs len) 0).2 (by omega)

/-- A longer stream has at least as many chunks (rule R124). -/
theorem chunkCount_mono {s : State} (hs : s.Configured) {len len' : Nat} (h : len ≤ len') :
    chunkCount s.params len ≤ chunkCount s.params len' := by
  cases hp : s.params.chunkEnable with
  | true =>
    rw [chunkCount_chunked hp, chunkCount_chunked hp]
    exact Nat.div_le_div_right (by omega)
  | false =>
    rcases Nat.eq_zero_or_pos len with rfl | hpos
    · rw [chunkCount_zero (chunkSize_pos hs 0)]
      exact Nat.zero_le _
    · rw [chunkCount_unchunked hp hpos, chunkCount_unchunked hp (hpos.trans_le h)]

theorem flushPlan_length (p : Params) (w h : Nat) (bytes : List Byte) :
    (flushPlan p w h bytes).length = chunkCount p 6 + chunkCount p bytes.length := by
  rw [flushPlan, List.length_append, chunkPlan_length, chunkPlan_length]
  rfl

/-! ### The chunks -/

/-- Transaction `j` of a stream, by the chunk it carries (rule R78). -/
theorem chunkPlan_getElem? {p : Params} {marker : Byte} {bytes b : List Byte} {j : Nat}
    (h : (chunkPlan p marker bytes)[j]? = some b) :
    j < chunkCount p bytes.length ∧
      b = marker :: (bytes.drop (j * chunkSize p bytes.length)).take (chunkSize p bytes.length) := by
  obtain ⟨hj, hb⟩ := List.getElem?_eq_some_iff.1 h
  rw [chunkPlan_length] at hj
  exact ⟨hj, by simpa [chunkPlan] using hb.symm⟩

/-- A chunk is the part of the stream between two multiples of `P`, or up to the stream's end (rule R78). -/
theorem take_drop_eq_extract (bytes : List Byte) (j P : Nat) :
    (bytes.drop (j * P)).take P = bytes.extract (j * P) (min ((j + 1) * P) bytes.length) := by
  rw [List.extract_eq_take_drop, List.take_eq_take_iff, List.length_drop, Nat.succ_mul]
  omega

/-- A stream's transactions carry a chunk of 1 to `P` bytes behind the marker (rules R61, R79). -/
theorem mem_chunkPlan {p : Params} {marker : Byte} {bytes b : List Byte} (hc : 1 ≤ chunkSize p bytes.length)
    (h : b ∈ chunkPlan p marker bytes) :
    ∃ chunk, b = marker :: chunk ∧ 1 ≤ chunk.length ∧ chunk.length ≤ chunkSize p bytes.length := by
  rw [chunkPlan_eq_greedyCut hc] at h
  obtain ⟨chunk, hmem, rfl⟩ := List.mem_map.1 h
  obtain ⟨hne, hle⟩ := greedyCut_ne_nil hc _ _ chunk hmem
  exact ⟨chunk, rfl, List.length_pos_iff.2 hne, hle⟩

/-- The payloads of a stream's first `n` transactions are its first `n * P` bytes (rule R79). -/
theorem chunkPlan_take_payloads {p : Params} {bytes : List Byte} (hc : 1 ≤ chunkSize p bytes.length) (marker : Byte)
    (n : Nat) :
    ((chunkPlan p marker bytes).take n).flatMap List.tail = bytes.take (n * chunkSize p bytes.length) := by
  rw [chunkPlan_eq_greedyCut hc, ← greedyCut_take_flatten hc bytes.length bytes le_rfl, ← List.map_take,
    List.flatMap_map]
  exact List.flatMap_id

/-! ### Streams -/

/-- The records of a plan that runs to its end carry the whole plan (rule R78). -/
theorem State.records_bytes_of_runsToEnd {s : State} {plan : List (List Byte)} (h : s.RunsToEnd plan.length) :
    (s.records plan).map Txn.bytes = plan := by
  rw [State.records_bytes, State.sent_of_runsToEnd h, List.take_length]

/-- Settles O33: the records are those of the whole chunk plan, and the count of chunks says which chunks are full. -/
theorem streamCutsIntoChunks : Obligations.StreamCutsIntoChunks := by
  intro s marker bytes P K hs hP hlen hK hbus hrun
  have hc := chunkSize_pos hs bytes.length
  obtain rfl : P = chunkSize s.params bytes.length := hP
  obtain rfl : K = chunkCount s.params bytes.length := hK
  have hplan := chunkPlan_length s.params marker bytes
  rw [← hplan] at hbus hrun
  have hbytes := State.records_bytes_of_runsToEnd hrun
  refine ⟨(s.afterPlan (chunkPlan s.params marker bytes)).setSeg none, s.records (chunkPlan s.params marker bytes),
    ?_, rfl, ?_, fun j e he => ?_⟩
  · rw [stream_eq hs marker hlen, runPlan_of_runsToEnd hbus hrun, Flow.mapState_going]
  · rw [← hplan, ← congrArg List.length hbytes, List.length_map]
  · have hget : (chunkPlan s.params marker bytes)[j]? = some e.bytes := by
      rw [← hbytes, List.getElem?_map, he, Option.map_some]
    obtain ⟨hj, hchunk⟩ := chunkPlan_getElem? hget
    have hfirst := (lt_chunkCount hc j).1 hj
    have hnext := lt_chunkCount hc (j + 1)
    have hsize : e.bytes.length =
        min (chunkSize s.params bytes.length) (bytes.length - j * chunkSize s.params bytes.length) + 1 := by
      rw [hchunk, List.length_cons, List.length_take, List.length_drop]
    rw [Nat.succ_mul] at hnext
    refine ⟨hchunk.trans (by rw [take_drop_eq_extract]), fun hfull => ?_, fun hlast => ?_⟩
    · have := hnext.1 hfull
      omega
    · rw [← hlast, Nat.add_sub_cancel]
      omega

/-- What a stream that is not left waiting records: transactions of its plan from the first on, all of them if it
went on (rules R78, R79). -/
theorem stream_records {s t : State} (hs : s.Configured) {marker : Byte} {bytes : List Byte}
    (hlen : bytes.length ≤ 65535) (h : stream marker bytes s = .going t ∨ stream marker bytes s = .aborted t) :
    ∃ new, t.txns = s.txns ++ new ∧ new.map Txn.bytes <+: chunkPlan s.params marker bytes ∧
      (stream marker bytes s = .going t → new.map Txn.bytes = chunkPlan s.params marker bytes) := by
  rw [stream_eq hs marker hlen] at h ⊢
  cases hr : runPlan (chunkPlan s.params marker bytes) s with
  | going u =>
    obtain rfl : u.setSeg none = t := by simpa [hr] using h
    obtain ⟨new, htxns, hbytes⟩ := runPlan_going hr
    exact ⟨new, htxns, hbytes ▸ List.prefix_rfl, fun _ => hbytes⟩
  | aborted u =>
    obtain rfl : u.setSeg none = t := by simpa [hr] using h
    have hall := runPlan_all (chunkPlan s.params marker bytes) s
    rw [hr] at hall
    obtain ⟨new, l, n, rfl, hprefix, -⟩ := hall
    exact ⟨new, rfl, hprefix, nofun⟩
  | waiting => simp [hr] at h

/-- Settles O34: what is recorded is the chunk plan from its front, whose payloads are the stream from its front; a whole
plan covers the stream. -/
theorem streamRebuildsItsBytes : Obligations.StreamRebuildsItsBytes := by
  intro s t marker bytes P hs hP hlen h
  have hc := chunkSize_pos hs bytes.length
  obtain rfl : P = chunkSize s.params bytes.length := hP
  obtain ⟨new, htxns, hprefix, hwhole⟩ := stream_records hs hlen h
  have hpayloads : new.flatMap (fun e => e.bytes.tail) = bytes.take (new.length * chunkSize s.params bytes.length) := by
    have htake := List.prefix_iff_eq_take.1 hprefix
    rw [List.length_map] at htake
    rw [← chunkPlan_take_payloads hc marker, ← htake, List.flatMap_map]
  refine ⟨new, htxns, fun e he => ?_, fun hgoing => ?_, fun _ => ⟨hprefix, hpayloads⟩⟩
  · obtain ⟨chunk, hb, hpos, hle⟩ := mem_chunkPlan hc (hprefix.subset (List.mem_map_of_mem he))
    rw [hb, List.length_cons]
    refine ⟨by omega, by omega, rfl, fun hp => ?_⟩
    have := hs hp
    rw [chunkSize, if_pos hp] at hle
    omega
  · have hcount : new.length = chunkCount s.params bytes.length := by
      rw [← chunkPlan_length s.params marker, ← hwhole hgoing, List.length_map]
    rw [hpayloads, hcount, List.take_of_length_le (le_chunkCount_mul hc)]

/-! ### The operations that send transactions run their plans -/

theorem exec_cmdlist_eq {s : State} (hs : s.Configured) (ha : s.Allocated) {payload : List Byte}
    (hlen : payload.length ≤ 65535) :
    exec (.cmdlist payload) s =
      ((runPlan (chunkPlan s.params 0x00#8 payload) s).mapState (·.setSeg none)).finish false := by
  rw [exec, execCmdlist, gated_of_open hs ha, stream_eq hs cmdMarker hlen, cmdMarker]

theorem exec_flush_eq {s : State} (hs : s.Configured) (ha : s.Allocated) :
    exec .flush s =
      ((runPlan (flushPlan s.params s.w.toNat s.h.toNat s.fbBytes) s).mapState (·.setSeg none)).finish false := by
  rw [exec, execFlush, gated_of_open hs ha, flushBody_eq hs]

theorem exec_cmd_eq {s : State} (hs : s.Configured) (ha : s.Allocated) (c : Byte) :
    exec (.cmd c) s = ((runPlan [[0x00#8, c]] s).mapState (·.setSeg none)).finish false := by
  rw [exec, execCmd, gated_of_open hs ha, stream_one hs, cmdMarker, runPlan_singleton]

theorem exec_shutdown_eq {s : State} (hs : s.Configured) (ha : s.Allocated) :
    exec .shutdown s =
      ((runPlan [[0x00#8, 0xAE#8]] (s.setLife .off)).mapState (·.setSeg none)).finish false := by
  rw [exec, execShutdown, gated_of_open hs ha, stream_one (s := s.setLife .off) hs, cmdMarker, runPlan_singleton]

theorem exec_init_eq {s : State} (hs : s.Configured) {width height : Field16} {addr : BusAddr}
    (h : s.Performs (.init width height addr)) :
    exec (.init width height addr) s =
      ((runPlan (initPlan s.params width.toNat height.toNat)
        (s.afterAlloc width.toNat height.toNat addr)).mapState (·.setSeg none)).finish true := by
  obtain ⟨hseg, hf, hl, hg, halloc, hsize⟩ := h
  rw [exec, execInit_eq hs, if_neg (not_not_intro hg), if_neg (by simp [hf]), if_neg (not_not_intro hl),
    if_pos ⟨halloc, hsize⟩, bringUp_afterAlloc hs hseg hg,
    mapState_setSeg_of_idle (u := s.afterAlloc width.toNat height.toNat addr) hseg]

/-! ### FLUSH's count -/

theorem fbBytes_length (s : State) : s.fbBytes.length = s.fbSize := by
  rw [State.fbBytes, List.length_map, List.length_range]

/-- The frame store holds the latched frame, or nothing (rules R24, R25). -/
theorem fbSize_le (s : State) : s.fbSize ≤ s.w.toNat * s.h.toNat / 8 := by
  rw [State.fbSize]
  split
  · exact Nat.zero_le _
  · exact le_rfl

/-- The length of FLUSH's plan, by rule R86's formula: neither of its two streams is empty. -/
theorem flushPlan_length_of_allocated {s : State} (hi : s.Inv) (ha : s.Allocated) :
    (flushPlan s.params s.w.toNat s.h.toNat s.fbBytes).length =
      if s.params.chunkEnable = true
      then (6 + (s.params.maxTxn - 1) - 1) / (s.params.maxTxn - 1) +
        (s.w.toNat * s.h.toNat / 8 + (s.params.maxTxn - 1) - 1) / (s.params.maxTxn - 1)
      else 2 := by
  rw [flushPlan_length, fbBytes_length, fbSize_of_allocated ha.2]
  split
  · next hp => rw [chunkCount_chunked hp, chunkCount_chunked hp]
  · next hp =>
    obtain ⟨-, -, -, -, hgeom⟩ := hi
    obtain ⟨hw, -, hh, -, -⟩ := hgeom ha.2
    have harea : 1 * 8 ≤ s.w.toNat * s.h.toNat := Nat.mul_le_mul hw hh
    rw [chunkCount_unchunked (by simpa using hp) (by decide), chunkCount_unchunked (by simpa using hp) (by omega)]

/-- Settles O35: FLUSH runs its plan, and a plan that runs to its end is recorded whole. -/
theorem flushTransactionCount : Obligations.FlushTransactionCount := by
  intro s n hs hi ha hn hbus hrun
  have hplan := (flushPlan_length_of_allocated hi ha).trans hn.symm
  constructor
  · rw [← hplan] at hbus hrun
    refine ⟨_, (exec_flush_eq hs ha).trans (finish_runPlan_idle hbus false), ?_⟩
    rw [State.respond_txns, State.setSeg_txns, State.afterPlan_txns, List.length_append, ← hplan,
      ← congrArg List.length (State.records_bytes_of_runsToEnd hrun), List.length_map]
  · intro hw hh hm hp
    rw [hn, if_pos hp, hw, hh, hm]
    rfl

/-! ### The bus policy -/

/-- Under ABORT_OP the first failed transaction is the last one sent (rule R80). -/
theorem State.sent_of_first_failure {s : State} {n k : Nat} (hp : s.params.onBusFail = .abortOp) (hk : k < n)
    (hfail : s.reply k = false) (hok : ∀ j, j < k → s.reply j = true) : s.sent n = k + 1 := by
  have hfind : ((List.range n).find? fun j => !s.reply j) = some k := by
    rw [List.find?_range_eq_some]
    simpa [hfail, hk] using hok
  simp only [State.sent, hp, hfind]

/-- The answers recorded are the transport's, in order (rules R29, R75). -/
theorem State.records_ok (s : State) (plan : List (List Byte)) :
    (s.records plan).map Txn.ok = (List.range (min (s.sent plan.length) plan.length)).map s.reply := by
  have hsnd : (Txn.ok ∘ fun e : List Byte × Nat => (⟨s.addr, e.1, s.reply e.2⟩ : Txn)) = s.reply ∘ Prod.snd := rfl
  rw [State.records, List.map_map, hsnd, ← List.map_map, List.zipIdx_map_snd, List.length_take,
    List.range_eq_range']

/-- Settles O37: the records carry as much of the plan as was sent, and the policy says how much that is. -/
theorem busFailurePolicy : Obligations.BusFailurePolicy := by
  intro s i plan hs ha hbus hi
  have hexec : exec i s = ((runPlan plan s).mapState (·.setSeg none)).finish false := by
    rcases hi with ⟨payload, rfl, hlen, rfl⟩ | ⟨rfl, rfl⟩
    · exact exec_cmdlist_eq hs ha hlen
    · exact exec_flush_eq hs ha
  refine ⟨_, s.records plan, hexec.trans (finish_runPlan_idle hbus false), rfl, rfl, rfl,
    fun hkeep => State.records_bytes_of_runsToEnd (.inl hkeep),
    fun _ hok => State.records_bytes_of_runsToEnd (.inr hok), fun k habort hk hfail hok => ?_⟩
  have hsent := State.sent_of_first_failure habort hk hfail hok
  constructor
  · rw [State.records_bytes, hsent]
  · have htrue : (List.range k).map s.reply = List.replicate k true := by
      rw [List.eq_replicate_iff]
      simpa using hok
    rw [State.records_ok, hsent, Nat.min_eq_left hk, List.range_succ, List.map_append, htrue, List.map_singleton,
      hfail]

/-! ### A transport that falls silent -/

/-- An operation whose plan reaches a transaction the transport never answers is stuck (rule R100), also from the state
`b` that it has written first: that changes neither the transport's script nor the policy. -/
theorem finish_runPlan_silent {s b : State} (hscript : b.busAnswers = s.busAnswers)
    (hparams : b.params = s.params) {plan : List (List Byte)} {k : Nat} (hk : k < plan.length)
    (hn : s.busAnswers[k]? = some .never) (ha : s.AnswersFirst k) (hr : s.RunsToEnd k) (r : Bool) :
    ((runPlan plan b).mapState (·.setSeg none)).finish r = .fault .transportSilent := by
  have hlt : k < s.busAnswers.length := (List.getElem?_eq_some_iff.1 hn).1
  have hrun : b.RunsToEnd k :=
    hr.imp (hparams ▸ ·) fun hok j hj => (State.reply_of_scripted hscript (hj.trans hlt)).trans (hok j hj)
  rw [runPlan_silent hk (hscript ▸ hn) (by rwa [State.AnswersFirst, hscript]) hrun]
  rfl

/-- An operation is stuck at the first planned transaction that the transport never answers (rule R100). -/
theorem exec_silent {s : State} {i : Instr} {k : Nat} (hs : s.Configured) (hp : s.Performs i)
    (hk : k < (s.plan i).length) (hn : s.busAnswers[k]? = some .never) (ha : s.AnswersFirst k)
    (hr : s.RunsToEnd k) : exec i s = .fault .transportSilent := by
  cases i with
  | init width height addr =>
    rw [exec_init_eq hs hp]
    exact finish_runPlan_silent (s := s) (b := s.afterAlloc width.toNat height.toNat addr) rfl rfl hk hn ha hr true
  | shutdown =>
    rw [exec_shutdown_eq hs hp]
    exact finish_runPlan_silent (s := s) (b := s.setLife .off) rfl rfl hk hn ha hr false
  | flush =>
    rw [exec_flush_eq hs hp]
    exact finish_runPlan_silent rfl rfl hk hn ha hr false
  | cmd c =>
    rw [exec_cmd_eq hs hp]
    exact finish_runPlan_silent rfl rfl hk hn ha hr false
  | cmdlist payload =>
    rw [exec_cmdlist_eq hs hp.1 hp.2]
    exact finish_runPlan_silent rfl rfl hk hn ha hr false
  | _ => cases hk

/-- Settles O38: the first transaction of a nonempty plan has none before it to answer or to abort. -/
theorem silentTransportIsStuck : Obligations.SilentTransportIsStuck := by
  refine ⟨fun s i k => exec_silent, fun s rest hs hbus => ?_⟩
  have hfirst : ∀ i, s.Performs i → 0 < (s.plan i).length → exec i s = .fault .transportSilent := fun i hp hlen =>
    exec_silent hs hp hlen (by rw [hbus]; rfl) (fun a ha => absurd ha List.not_mem_nil) (.inr nofun)
  refine ⟨fun width height addr hp => hfirst _ hp ?_, fun ha => ⟨fun c => hfirst _ ha ?_,
    fun payload hne hlen => hfirst _ ⟨ha, hlen⟩ ?_, hfirst _ ha ?_, hfirst _ ha ?_⟩⟩
  · simp [State.plan, initPlan]
  · exact Nat.one_pos
  · rw [State.plan, chunkPlan_length]
    exact chunkCount_pos hs (List.length_pos_iff.2 hne)
  · rw [State.plan, flushPlan_length]
    exact Nat.add_pos_left (chunkCount_pos hs (by decide)) _
  · exact Nat.one_pos

/-! ### The number of transactions -/

/-- An operation that completes by running a plan adds at most one record per transaction of the plan (rule R75). -/
theorem finish_runPlan_txns_le {plan : List (List Byte)} {b t : State} {r : Bool}
    (h : ((runPlan plan b).mapState (·.setSeg none)).finish r = .next t) :
    t.txns.length ≤ b.txns.length + plan.length := by
  obtain ⟨v, ⟨u, ⟨new, l, n, rfl, hprefix, -⟩, rfl⟩, rfl⟩ := Flow.finish_eq_next (runPlan_all plan b).mapState h
  have hle := hprefix.length_le
  rw [List.length_map] at hle
  simpa using hle

/-- INIT's allocation succeeds, or INIT that completes adds no record (rules R91, R101). -/
theorem exec_init_performs_or_txns {s t : State} {width height : Field16} {addr : BusAddr} (hs : s.Configured)
    (hseg : s.seg = none) (h : exec (.init width height addr) s = .next t) :
    s.Performs (.init width height addr) ∨ t.txns = s.txns := by
  rw [exec, execInit_eq hs] at h
  split_ifs at h with hg hf hl halloc
  · cases h
    exact .inr rfl
  · exact .inl ⟨hseg, by simpa using hf, not_not.1 hl, hg, halloc⟩
  · cases h
    exact .inr rfl

/-- An operation that completes adds at most one record per transaction that it plans (rules R74, R75, R99). -/
theorem exec_txns_le_plan {i : Instr} {s t : State} (hi : s.Inv) (hwf : i.wellFormed = true)
    (h : exec i s = .next t) : t.txns.length ≤ s.txns.length + (s.plan i).length := by
  obtain ⟨hs, hnext⟩ := exec_next h
  obtain ⟨-, -, hseg, -, -⟩ := hi
  have hsame : t.txns = s.txns → t.txns.length ≤ s.txns.length + (s.plan i).length := fun e =>
    e ▸ Nat.le_add_right _ _
  cases i with
  | init width height addr =>
    rcases exec_init_performs_or_txns hs hseg h with hp | he
    · rw [exec_init_eq hs hp] at h
      exact finish_runPlan_txns_le (b := s.afterAlloc width.toNat height.toNat addr) h
    · exact hsame he
  | shutdown =>
    cases hnext with
    | noop => exact hsame rfl
    | shutdown u ha =>
      rw [exec_shutdown_eq hs ha] at h
      exact finish_runPlan_txns_le (b := s.setLife .off) h
  | flush =>
    cases hnext with
    | noop => exact hsame rfl
    | flush u ha =>
      rw [exec_flush_eq hs ha] at h
      exact finish_runPlan_txns_le h
  | cmd c =>
    cases hnext with
    | noop => exact hsame rfl
    | cmd _ u ha =>
      rw [exec_cmd_eq hs ha] at h
      exact finish_runPlan_txns_le h
  | cmdlist payload =>
    cases hnext with
    | noop => exact hsame rfl
    | cmdlist _ u ha =>
      rw [exec_cmdlist_eq hs ha (of_decide_eq_true hwf)] at h
      exact finish_runPlan_txns_le h
  | _ => cases hnext <;> exact hsame rfl

/-- A well-formed operation plans at most the transactions rule R124 bounds it by. -/
theorem plan_length_le_transactionBound {i : Instr} {s : State} (hs : s.Configured) (hwf : i.wellFormed = true) :
    (s.plan i).length ≤ transactionBound s.params s.w.toNat s.h.toNat i := by
  cases i with
  | flush =>
    rw [State.plan, flushPlan_length, fbBytes_length, transactionBound]
    exact Nat.add_le_add_left (chunkCount_mono hs (fbSize_le s)) _
  | cmdlist payload =>
    rw [State.plan, chunkPlan_length, transactionBound]
    exact chunkCount_mono hs (of_decide_eq_true hwf)
  | _ => exact le_rfl

/-- Settles O59: an operation records at most what it plans, and plans at most its bound. -/
theorem operationsSendBoundedlyMany : Obligations.OperationsSendBoundedlyMany := by
  intro i s t hi hwf h
  have hs : s.Configured := (exec_next h).1
  exact (exec_txns_le_plan hi hwf h).trans (Nat.add_le_add_left (plan_length_le_transactionBound hs hwf) _)

end Sys2Proof.Machine
end

section
/-! PROOFS. The lifecycle family: the gate's no-ops, INIT's refusals, what the standard table sends, and how many
transactions a successful INIT emits (rules R88 to R96). -/

namespace Sys2Proof.Machine

open Sys2Proof

/-! ### The gate -/

/-- Every operation but INIT is gated, so with the gate closed it is a no-op (rule R89). -/
theorem exec_of_closed {s : State} (hs : s.Configured) (hg : s.allocFail = true ∨ s.life = .uninit) {i : Instr}
    (hi : ∀ width height addr, i ≠ .init width height addr) : exec i s = .next (s.respond false) := by
  cases i with
  | init width height addr => exact absurd rfl (hi width height addr)
  | shutdown => rw [exec, execShutdown, gated_of_closed hs hg]
  | setpx => rw [exec, execSetpx, gated_of_closed hs hg]
  | setrgb => rw [exec, execSetrgb, gated_of_closed hs hg]
  | getpx => rw [exec, execGetpx, gated_of_closed hs hg]
  | clear => rw [exec, execClear, gated_of_closed hs hg]
  | flush => rw [exec, execFlush, gated_of_closed hs hg]
  | cmd => rw [exec, execCmd, gated_of_closed hs hg]
  | cmdlist => rw [exec, execCmdlist, gated_of_closed hs hg]

/-- A step on a presented operation takes its word and its payload from the port and runs it (rules R27, R53). -/
theorem step_of_encode {s : State} {i : Instr} (hi : i.wellFormed = true) {rest : List HostInput}
    (h : s.inputs = encode i ++ rest) : step s = exec i (s.setInputs rest) :=
  stepRunsTheDecodedOperation s _ _ i rest h (decodeReadsBackEveryEncodedOperation i rest hi)

/-- Settles O26: with the gate closed the operation is a no-op, and a presented CMDLIST is run with its payload already
taken. -/
theorem gateMakesOperationsNoops : Obligations.GateMakesOperationsNoops := by
  intro s hs hg
  refine ⟨fun i hi => exec_of_closed hs hg hi, fun payload rest hlen hin => ?_⟩
  rw [step_of_encode (i := .cmdlist payload) (decide_eq_true hlen) hin]
  exact exec_of_closed (s := s.setInputs rest) hs hg nofun

/-! ### INIT's refusals -/

/-- With a legal geometry the one refusal left to INIT is `REINIT` (rules R90, R91). -/
theorem exec_init_ne_badGeometry {s : State} (hs : s.Configured) {width height : Field16}
    (hg : LegalGeometry width.toNat height.toNat) (addr : BusAddr) (word : OpWord) :
    exec (.init width height addr) s ≠ .refused (.badGeometry word) := by
  intro h
  rw [exec, execInit_eq hs, if_neg (not_not_intro hg)] at h
  split_ifs at h
  · cases h
  · exact Flow.finish_ne_refused _ _ _ h

/-- Settles O42: the geometry is the first thing INIT checks, and a legal one passes. -/
theorem illegalGeometryIsRefused : Obligations.IllegalGeometryIsRefused := by
  intro s width height addr hs
  constructor
  · intro hg
    rw [exec, execInit_eq hs, if_pos hg]
  · intro h hg
    exact exec_init_ne_badGeometry hs hg addr _ h

/-- Settles O43: an open gate means `ALLOC_FAIL = 0` and `LIFE` not `UNINIT`, which leaves `REINIT`. -/
theorem reinitIsRefused : Obligations.ReinitIsRefused := by
  intro s width height addr hs ⟨hf, hl⟩ hg
  rw [exec, execInit_eq hs, if_neg (not_not_intro hg), if_neg (by simp [hf]), if_pos hl]

/-! ### The standard table -/

/-- A nonempty stream of at most `P` bytes is one transaction (rule R78). -/
theorem chunkPlan_of_fits {p : Params} {bytes : List Byte} (hne : bytes ≠ [])
    (hfits : bytes.length ≤ chunkSize p bytes.length) (marker : Byte) :
    chunkPlan p marker bytes = [marker :: bytes] := by
  obtain ⟨b, bs, rfl⟩ := List.exists_cons_of_ne_nil hne
  have hc : 1 ≤ chunkSize p (b :: bs).length := le_trans (by simp) hfits
  rw [chunkPlan_eq_greedyCut hc, List.length_cons, greedyCut, ← List.length_cons (a := b),
    List.take_of_length_le hfits, List.drop_of_length_le hfits]
  cases bs <;> rfl

/-- With `M` at least 3 when chunking, a chunk holds a command and its argument (rule R94). -/
theorem two_le_chunkSize {p : Params} (hp : p.chunkEnable = true → 3 ≤ p.maxTxn) : 2 ≤ chunkSize p 2 := by
  unfold chunkSize
  split
  · next hc =>
    have := hp hc
    omega
  · exact le_max_left 2 1

/-- INIT plans the transactions of each of its table's groups (rules R91, R92). -/
theorem mem_initPlan_of_group {p : Params} {w h : Nat} {g : CommandGroup} (hg : g ∈ tableGroups p.initTable w h)
    {b : List Byte} (hb : b ∈ chunkPlan p 0x00#8 g.bytes) : b ∈ initPlan p w h :=
  List.mem_append_left _ (List.mem_append_left _ (List.mem_flatMap.2 ⟨g, hg, hb⟩))

/-- Settles O50: the multiplex group fits one transaction, and `H - 1` fits one byte. -/
theorem standardTableSetsMultiplexRatio : Obligations.StandardTableSetsMultiplexRatio := by
  intro p w h htable ⟨_, _, hlow, hhigh, _⟩ hp
  have hgroup : group2 0xA8#8 (BitVec.ofNat 8 (h - 1)) ∈ tableGroups p.initTable w h := by
    simp [htable, tableGroups, standardGroups]
  have hplan : chunkPlan p 0x00#8 [0xA8#8, BitVec.ofNat 8 (h - 1)] = [[0x00#8, 0xA8#8, BitVec.ofNat 8 (h - 1)]] :=
    chunkPlan_of_fits (bytes := [0xA8#8, BitVec.ofNat 8 (h - 1)]) (List.cons_ne_nil _ _) (two_le_chunkSize hp) 0x00#8
  refine ⟨mem_initPlan_of_group hgroup ?_, ?_, by omega, by omega⟩
  · rw [group2, hplan]
    exact List.mem_singleton_self _
  · rw [BitVec.toNat_ofNat, Nat.mod_eq_of_lt (by omega)]

/-! ### INIT's count -/

/-- The length of INIT's plan, by rule R96's formula. -/
theorem initPlan_length (p : Params) (w h : Nat) :
    (initPlan p w h).length =
      ((tableGroups p.initTable w h).map fun g => chunkCount p g.bytes.length).sum + 1 +
        (chunkCount p 6 + chunkCount p (w * h / 8)) := by
  simp only [initPlan, List.length_append, List.length_flatMap, chunkPlan_length, flushPlan_length,
    List.length_replicate, List.length_singleton]

/-- A plan that runs to its end leaves one record per transaction (rules R29, R78). -/
theorem State.records_length_of_runsToEnd {s : State} {plan : List (List Byte)} (h : s.RunsToEnd plan.length) :
    (s.records plan).length = plan.length := by
  simpa using congrArg List.length (State.records_bytes_of_runsToEnd h)

/-- With `M = 32` and chunking the standard table's plan for 128 by 64 holds 51 transactions (rule R96). -/
theorem initPlan_length_standard {p : Params} (hp : p.chunkEnable = true) (hm : p.maxTxn = 32)
    (htable : p.initTable = .standard) : (initPlan p 128 64).length = 51 := by
  simp only [initPlan_length, chunkCount_chunked hp, hm, htable]
  decide

/-- Settles O51: a successful INIT runs INIT's plan, and a plan that runs to its end is recorded whole. -/
theorem initTransactionCount : Obligations.InitTransactionCount := by
  intro s width height addr n hs hi hf hl hg halloc hsize hn hbus hrun
  have hplan : n = (initPlan s.params width.toNat height.toNat).length := hn.trans (initPlan_length _ _ _).symm
  constructor
  · rw [hplan] at hbus hrun
    refine ⟨_, initBringsTheDisplayUp s width height addr hs hi hf hl hg halloc hsize hbus, ?_, rfl⟩
    rw [State.respond_txns, State.afterPlan_txns, List.length_append, State.records_length_of_runsToEnd hrun, hplan,
      State.afterAlloc_txns]
  · rintro hp hm htable rfl rfl
    exact hplan.trans (initPlan_length_standard hp hm htable)

end Sys2Proof.Machine
end

section
/-! PROOFS. The exceptions family: the order of a step's checks, the no-ops after an allocation failure, and that a
presented operation ends (rules R97 to R103, R124). -/

namespace Sys2Proof.Machine

open Sys2Proof

/-! ### The checks of a step -/

/-- Settles O10: the configuration is checked first, and in a legal one the step answers as decoding does. -/
theorem stepChecksConfigurationBeforeDecoding : Obligations.StepChecksConfigurationBeforeDecoding := by
  intro s w following hin
  rw [step_op hin]
  refine ⟨fun hs => if_pos (configBad_eq_true.2 hs), ?_, ?_, ?_⟩
  all_goals
    intro hs hd
    rw [configBad_eq_false.2 hs, hd]
    rfl

/-! ### An allocation failure -/

/-- An INIT whose allocation fails uses up the allocator's answer, sets `ALLOC_FAIL` and answers 0 (rules R30, R101). -/
theorem exec_init_alloc_fails {s : State} {width height : Field16} (hs : s.Configured) (hf : s.allocFail = false)
    (hl : s.life = .uninit) (hg : LegalGeometry width.toNat height.toNat)
    (hfails : s.allocReply = false ∨ s.params.fbBytesMax < width.toNat * height.toNat / 8) (addr : BusAddr) :
    exec (.init width height addr) s = .next ((s.afterAllocDraw.setAllocFail true).respond false) := by
  have hno : ¬(s.allocReply = true ∧ width.toNat * height.toNat / 8 ≤ s.params.fbBytesMax) := by
    rintro ⟨halloc, hsize⟩
    rcases hfails with hr | hlt
    · exact Bool.false_ne_true (hr.symm.trans halloc)
    · exact hlt.not_ge hsize
  rw [exec, execInit_eq hs, if_neg (not_not_intro hg), if_neg (by simp [hf]), if_neg (not_not_intro hl), if_neg hno]

/-- After an allocation failure every operation but an INIT with an illegal geometry is a no-op (rules R18, R89, R101):
the gate is closed, and INIT checks `ALLOC_FAIL` before `LIFE`. -/
theorem exec_of_allocFail {s : State} (hs : s.Configured) (hf : s.allocFail = true) {i : Instr}
    (hi : ∀ w h a, i = .init w h a → LegalGeometry w.toNat h.toNat) : exec i s = .next (s.respond false) := by
  cases i with
  | init width height addr => exact initIsNoopAfterAllocationFailure s width height addr hs hf (hi _ _ _ rfl)
  | _ => exact exec_of_closed hs (.inl hf) nofun

/-- Settles O41: the failed INIT leaves `ALLOC_FAIL` set, which makes what follows no-ops. -/
theorem allocationFailureMakesNoops : Obligations.AllocationFailureMakesNoops := by
  intro s width height addr hs hf hl hg hfails
  refine ⟨_, exec_init_alloc_fails hs hf hl hg hfails addr, rfl, hl, rfl, fun i hi => ?_⟩
  exact exec_of_allocFail (s := (s.afterAllocDraw.setAllocFail true).respond false) hs rfl hi

/-! ### Operations end when the transport answers -/

/-- An operation that runs a plan completes when the transport never stays silent (rules R80, R97). -/
theorem finish_runPlan_completes {s : State} (hbus : ∀ a ∈ s.busAnswers, a ≠ .never) (plan : List (List Byte))
    (r : Bool) : ∃ t, ((runPlan plan s).mapState (·.setSeg none)).finish r = .next t :=
  ⟨_, finish_runPlan_idle (fun a ha => hbus a (List.mem_of_mem_take ha)) r⟩

/-- Every operation but INIT completes when the transport never stays silent: with the gate closed as a no-op, with it
open as a pixel operation or as a run of its plan (rules R89, R97). -/
theorem exec_completes {s : State} {i : Instr} (hs : s.Configured) (hi : s.Inv)
    (hbus : ∀ a ∈ s.busAnswers, a ≠ .never) (hwf : i.wellFormed = true) (hinit : ∀ w h a, i ≠ .init w h a) :
    ∃ t, exec i s = .next t := by
  by_cases ha : s.Allocated
  · cases i with
    | init width height addr => exact absurd rfl (hinit width height addr)
    | shutdown =>
      rw [exec_shutdown_eq hs ha]
      exact finish_runPlan_completes (s := s.setLife .off) hbus _ _
    | setpx x y on =>
      obtain ⟨m, r, h⟩ := exec_setpx_completes hs hi x y on
      exact ⟨_, h⟩
    | setrgb x y r g b =>
      rw [exec_setrgb_eq_setpx hs]
      obtain ⟨m, v, h⟩ := exec_setpx_completes hs hi x y (mono s.params.monoRule r g b)
      exact ⟨_, h⟩
    | getpx x y =>
      obtain ⟨r, h⟩ := exec_getpx_completes hs hi x y
      exact ⟨_, h⟩
    | clear => exact ⟨_, exec_clear hs hi⟩
    | flush =>
      rw [exec_flush_eq hs ha]
      exact finish_runPlan_completes hbus _ _
    | cmd c =>
      rw [exec_cmd_eq hs ha]
      exact finish_runPlan_completes hbus _ _
    | cmdlist payload =>
      rw [exec_cmdlist_eq hs ha (of_decide_eq_true hwf)]
      exact finish_runPlan_completes hbus _ _
  · exact ⟨_, exec_of_closed hs (not_allocated.1 ha) hinit⟩

/-- INIT with a legal geometry completes while `LIFE = UNINIT`, when the transport never stays silent: as a no-op after
an allocation failure, else whether its own allocation succeeds or fails (rules R91, R101). -/
theorem exec_init_completes {s : State} {width height : Field16} (hs : s.Configured) (hi : s.Inv)
    (hbus : ∀ a ∈ s.busAnswers, a ≠ .never) (hg : LegalGeometry width.toNat height.toNat) (hl : s.life = .uninit)
    (addr : BusAddr) : ∃ t, exec (.init width height addr) s = .next t := by
  cases hf : s.allocFail with
  | true => exact ⟨_, initIsNoopAfterAllocationFailure s width height addr hs hf hg⟩
  | false =>
    by_cases halloc : s.allocReply = true ∧ width.toNat * height.toNat / 8 ≤ s.params.fbBytesMax
    · exact ⟨_, initBringsTheDisplayUp s width height addr hs hi hf hl hg halloc.1 halloc.2
        fun a ha => hbus a (List.mem_of_mem_take ha)⟩
    · refine ⟨_, exec_init_alloc_fails hs hf hl hg ?_ addr⟩
      rwa [not_and_or, Bool.not_eq_true, not_le] at halloc

/-- In a state that meets the invariant the gate is open unless `LIFE = UNINIT` (rules R18, R89). -/
theorem State.Inv.allocated {s : State} (hi : s.Inv) (hl : s.life ≠ .uninit) : s.Allocated := by
  have ⟨_, _, _, hfail, _⟩ := hi
  exact ⟨Bool.eq_false_iff.2 fun hf => hl (hfail hf), hl⟩

/-- Settles O60: the step runs the operation decoded, whose word is the one presented. Only INIT can fail to complete,
by the geometry it is given or, with the gate open, by `LIFE`. -/
theorem presentedOperationsEnd : Obligations.PresentedOperationsEnd := by
  intro s w following i rest hi hs hbus hin hd
  obtain ⟨hwf, rfl, -⟩ := everyAcceptedWordEncodesBack w following i rest hd
  rw [stepRunsTheDecodedOperation s _ following i rest hin hd]
  by_cases hinit : ∃ width height addr, i = .init width height addr
  · obtain ⟨width, height, addr, rfl⟩ := hinit
    by_cases hg : LegalGeometry width.toNat height.toNat
    · by_cases hl : s.life = .uninit
      · exact .inl (exec_init_completes (s := s.setInputs rest) hs hi hbus hg hl addr)
      · have href := reinitIsRefused (s.setInputs rest) width height addr hs (hi.allocated hl) hg
        exact .inr ⟨width, height, addr, rfl, .inr ⟨hg, hl, href⟩⟩
    · have href := (illegalGeometryIsRefused (s.setInputs rest) width height addr hs).1 hg
      exact .inr ⟨width, height, addr, rfl, .inl ⟨hg, href⟩⟩
  · exact .inl (exec_completes (s := s.setInputs rest) hs hi hbus hwf fun w h a he => hinit ⟨w, h, a, he⟩)

end Sys2Proof.Machine
end

section
/-! PROOFS. The statements about no one operation: words of the formats, a step that waits or takes a reset, the reset
values, and tables held as data (rules R31, R46 to R53, R90, R92, R115, R117). -/

namespace Sys2Proof.Machine

open Sys2Proof

/-! ### Tables held as data -/

/-- Every geometry that rule R90 allows. -/
def legalGeometries : List (Nat × Nat) :=
  ((List.range 257).product (List.range 257)).filter fun g => legalGeometry g.1 g.2

theorem mem_legalGeometries {w h : Nat} : (w, h) ∈ legalGeometries ↔ LegalGeometry w h := by
  rw [legalGeometries, List.mem_filter, legalGeometry_eq_true, List.pair_mem_product, List.mem_range, List.mem_range]
  exact and_iff_right_of_imp fun ⟨_, hw, _, hh, _⟩ => ⟨Nat.lt_succ_of_le hw, Nat.lt_succ_of_le hh⟩

/-- The rows that tabulate a function on a list of geometries. -/
def tabulate (f : Nat → Nat → List CommandGroup) (gs : List (Nat × Nat)) : List InitRow :=
  gs.map fun g => ⟨g.1, g.2, f g.1 g.2⟩

/-- A tabulated function is read back at every geometry tabulated: the first row found is one of its own values. -/
theorem rowGroups_tabulate (f : Nat → Nat → List CommandGroup) {gs : List (Nat × Nat)} {w h : Nat}
    (hmem : (w, h) ∈ gs) : rowGroups (tabulate f gs) w h = f w h := by
  induction gs with
  | nil => cases hmem
  | cons g gs ih =>
    change (if g.1 = w ∧ g.2 = h then f g.1 g.2 else rowGroups (tabulate f gs) w h) = f w h
    split
    next hhere => rw [hhere.1, hhere.2]
    next helse => exact ih ((List.mem_cons.1 hmem).resolve_left fun he => helse (Prod.ext_iff.1 he.symm))

/-- Settles O49: legal geometries are finitely many, so the rows of all of them hold the function. -/
theorem initTablesHoldEveryFunction : Obligations.InitTablesHoldEveryFunction := by
  intro f
  exact ⟨.listed (tabulate f legalGeometries), fun w h hg => rowGroups_tabulate f (mem_legalGeometries.2 hg)⟩

/-! ### Words of the formats -/

/-- Settles O4: each word is the encoding of its operation, and every encoding reads back. -/
theorem wordsOfTheFormatsDecode : Obligations.WordsOfTheFormatsDecode :=
  ⟨decodeReadsBackEveryEncodedOperation (.init 128#16 64#16 0x3C#7) [] rfl,
    decodeReadsBackEveryEncodedOperation .shutdown [] rfl,
    decodeReadsBackEveryEncodedOperation (.setpx 5#16 13#16 true) [] rfl,
    decodeReadsBackEveryEncodedOperation (.setrgb 2#16 3#16 200#8 0#8 0#8) [] rfl,
    decodeReadsBackEveryEncodedOperation (.getpx 5#16 13#16) [] rfl,
    decodeReadsBackEveryEncodedOperation .clear [] rfl,
    decodeReadsBackEveryEncodedOperation .flush [] rfl,
    decodeReadsBackEveryEncodedOperation (.cmd 0xA7#8) [] rfl,
    decodeReadsBackEveryEncodedOperation (.cmdlist [0x81#8, 0x7F#8]) [] rfl⟩

/-! ### Waiting and reset -/

/-- Settles O12: with nothing to fetch the step answers the state it was given. -/
theorem stepWaitsForTheHost : Obligations.StepWaitsForTheHost := by
  intro s hended
  have hfetch : fetch s = .waiting := by rw [fetch, hended]
  rw [step, hfetch]

/-- A step that finds a reset takes it from the port and resets the state (rules R115, R117). -/
theorem step_reset {s : State} {rest : List HostInput} (hin : s.inputs = .reset :: rest) :
    step s = .next (s.setInputs rest).resetEvent := by
  have hfetch : fetch s = .reset (s.setInputs rest).resetEvent := by rw [fetch, hin]
  rw [step, hfetch]

/-- Settles O13: the step answers the reset state, which waits once nothing is left to take. -/
theorem resetRestoresTheResetValues : Obligations.ResetRestoresTheResetValues := by
  intro s rest hin
  exact ⟨_, step_reset hin, rfl, rfl, rfl, if_pos rfl, rfl, rfl, rfl, rfl, rfl, rfl, rfl,
    fun hrest => stepWaitsForTheHost _ hrest⟩

/-- Settles O14: each value is a field of `State.reset`, and `FB` is empty because `FB_SIZE` is 0 while
`LIFE = UNINIT`. -/
theorem stateResetHoldsTheResetValues : Obligations.StateResetHoldsTheResetValues := by
  have hsize : State.reset.fbSize = 0 := if_pos rfl
  have hbytes : State.reset.fbBytes = [] := by rw [fbBytes_of_empty rfl, hsize, List.replicate_zero]
  exact ⟨rfl, rfl, rfl, hbytes, rfl, rfl, rfl, rfl⟩

end Sys2Proof.Machine
end
